-- ==== Sys2Proof/Word.lean ====
section
/-! DEFINITION. The words of the core (spec 00_scope.md R5, R7): every value is an unsigned integer of a fixed width. -/

namespace Sys2Proof

/-- A byte: the V registers, the timers, a memory cell, the immediate kk (R5, R14, R23, R33, R55). -/
abbrev Byte := BitVec 8

/-- A 16-bit word: an instruction, PC, I, a stack entry (R5, R17, R20, R22, R53). -/
abbrev Word := BitVec 16

/-- The 12-bit address immediate nnn (R55, R57). -/
abbrev Addr12 := BitVec 12

/-- A register index 0x0..0xF, naming V0..VF (R14, R55). -/
abbrev RegIdx := Fin 16

/-- The 16-key boolean vector: entry k is true while hex key k is pressed (R140). -/
abbrev Keys := Vector Bool 16

/-- The 64x32 grid of 1-bit pixels, 32 rows of 64 columns; true is on (R25, R109). -/
abbrev Framebuffer := Vector (Vector Bool 64) 32

end Sys2Proof
end

