-- ==== Sys2Proof/Config.lean ====
section
/-! DEFINITION. What is fixed for one core (spec 00_scope.md R5), the two open parameters the spec leaves to the
implementation (R6) and the two inputs that are any value (R140, R141). An `opaque` constant has no value that a proof can
see, so a theorem about it holds whatever it is. -/

namespace Sys2Proof

/-- `MEM_SIZE` (R5): addresses 0x000..0xFFF. -/
@[simp] abbrev Config.memSize : Nat := 0x1000

/-- `FONT_LEN` (R5): 16 glyphs of 5 bytes at `FONT_BASE` = 0x000. -/
@[simp] abbrev Config.fontLen : Nat := 80

/-- `GLYPH_SIZE` (R5). -/
@[simp] abbrev Config.glyphSize : Nat := 5

/-- `PROG_BASE` (R5): where load copies the program, and PC after construction (R31). -/
@[simp] abbrev Config.progBase : Nat := 0x200

/-- `PROG_MAX` (R5): the longest program, 4096 - 0x200 bytes. -/
@[simp] abbrev Config.progMax : Nat := 3584

/-- The two ways `Fx0A` may detect a key (R6 `KEYWAIT_MODE`, R118, R119). -/
inductive KeywaitMode where
  /-- A key that goes from released to pressed after the wait began (the spec's default). -/
  | edge
  /-- Any key that is down. -/
  | level
  deriving DecidableEq, Repr, Inhabited

/-- `KEYWAIT_MODE` (R6, D13, C7), left open: every claim holds in both modes. Log 7. -/
opaque Config.keywaitMode : KeywaitMode

/-- `FONT_ROM` (R6, R30, D5), left open: the 80 bytes the construction writes to 0x000..0x04F. Log 6. -/
opaque Config.fontRom : Vector Byte 80

/-- FREE VALUE. The key vector the host presents to the n-th step (R140, D23: any vector at any step). Log 3. -/
opaque Config.keyInput : Nat → Keys

/-- FREE VALUE. The byte the random provider has on offer for the n-th step (R101, R141, D20: any byte). Log 3. -/
opaque Config.randomByte : Nat → Byte

end Sys2Proof
end

