-- ==== Sys2Proof/Syntax.lean ====
section
/-! DEFINITION. The instructions of spec/opcode_table.json, one constructor a row, in the table's order, with the fields of
spec 30_encoding.md R55 to R57 as operands. Every operand has exactly the range of its field. -/

namespace Sys2Proof

/-- The 34 rows of the opcode table (R59): 33 implemented operations and `Bnnn`. -/
inductive Instr where
  /-- `00E0` CLS (R110) -/
  | cls
  /-- `00EE` RET (R77) -/
  | ret
  /-- `1nnn` JP nnn (R78) -/
  | jp (nnn : Addr12)
  /-- `2nnn` CALL nnn (R79) -/
  | call (nnn : Addr12)
  /-- `3xkk` SE Vx, kk (R80) -/
  | seImm (x : RegIdx) (kk : Byte)
  /-- `4xkk` SNE Vx, kk (R81) -/
  | sneImm (x : RegIdx) (kk : Byte)
  /-- `5xy0` SE Vx, Vy (R82) -/
  | seReg (x y : RegIdx)
  /-- `6xkk` LD Vx, kk (R88) -/
  | ldImm (x : RegIdx) (kk : Byte)
  /-- `7xkk` ADD Vx, kk (R89) -/
  | addImm (x : RegIdx) (kk : Byte)
  /-- `8xy0` LD Vx, Vy (R90) -/
  | ldReg (x y : RegIdx)
  /-- `8xy1` OR Vx, Vy (R91) -/
  | orReg (x y : RegIdx)
  /-- `8xy2` AND Vx, Vy (R92) -/
  | andReg (x y : RegIdx)
  /-- `8xy3` XOR Vx, Vy (R93) -/
  | xorReg (x y : RegIdx)
  /-- `8xy4` ADD Vx, Vy (R94) -/
  | addReg (x y : RegIdx)
  /-- `8xy5` SUB Vx, Vy (R95) -/
  | subReg (x y : RegIdx)
  /-- `8xy6` SHR Vx with the ignored field y (R96, R63; log 11) -/
  | shr (x y : RegIdx)
  /-- `8xy7` SUBN Vx, Vy (R97) -/
  | subnReg (x y : RegIdx)
  /-- `8xyE` SHL Vx with the ignored field y (R98, R63; log 11) -/
  | shl (x y : RegIdx)
  /-- `9xy0` SNE Vx, Vy (R83) -/
  | sneReg (x y : RegIdx)
  /-- `Annn` LD I, nnn (R102) -/
  | ldI (nnn : Addr12)
  /-- `Bnnn` JP V0, nnn, listed and explicitly unimplemented (R84) -/
  | jpV0 (nnn : Addr12)
  /-- `Cxkk` RND Vx, kk (R100) -/
  | rnd (x : RegIdx) (kk : Byte)
  /-- `Dxyn` DRW Vx, Vy, n, with n rows (R111) -/
  | drw (x y : RegIdx) (n : Fin 16)
  /-- `Ex9E` SKP Vx (R116) -/
  | skp (x : RegIdx)
  /-- `ExA1` SKNP Vx (R117) -/
  | sknp (x : RegIdx)
  /-- `Fx07` LD Vx, DT (R120) -/
  | ldVxDt (x : RegIdx)
  /-- `Fx0A` LD Vx, K (R118) -/
  | ldVxK (x : RegIdx)
  /-- `Fx15` LD DT, Vx (R121) -/
  | ldDtVx (x : RegIdx)
  /-- `Fx18` LD ST, Vx (R122) -/
  | ldStVx (x : RegIdx)
  /-- `Fx1E` ADD I, Vx (R103) -/
  | addI (x : RegIdx)
  /-- `Fx29` LD F, Vx (R104) -/
  | ldF (x : RegIdx)
  /-- `Fx33` LD B, Vx (R105) -/
  | ldB (x : RegIdx)
  /-- `Fx55` LD [I], Vx (R106) -/
  | ldMemVx (x : RegIdx)
  /-- `Fx65` LD Vx, [I] (R107) -/
  | ldVxMem (x : RegIdx)
  deriving DecidableEq, Repr

end Sys2Proof
end

