-- ==== Sys2Proof/WellFormed.lean ====
section
/-! DEFINITION. Which instruction words are well formed, that is implemented (spec 30_encoding.md R60, R61). The operands of
`Instr` have the exact ranges of their fields, so every term of `Instr` is well formed as syntax; what a program can get wrong
is the WORD. The seven checks below are the seven sets of R61, written on the bits with the spec's masks and independently of
the decoder, so that the two can be held against each other. -/

namespace Sys2Proof

/-- Class 0x0: only 0x00E0 and 0x00EE are implemented (R60, R61). -/
def wellFormedClass0 (w : Word) : Bool := w &&& 0xF000 != 0x0000 || w == 0x00E0 || w == 0x00EE

/-- Class 0x5: n must be 0 (R60, R61). -/
def wellFormedClass5 (w : Word) : Bool := w &&& 0xF000 != 0x5000 || w &&& 0x000F == 0

/-- Class 0x8: n must be 0x0..0x7 or 0xE (R61). -/
def wellFormedClass8 (w : Word) : Bool :=
  w &&& 0xF000 != 0x8000 || [0x0, 0x1, 0x2, 0x3, 0x4, 0x5, 0x6, 0x7, 0xE].contains (w &&& 0x000F)

/-- Class 0x9: n must be 0 (R60, R61). -/
def wellFormedClass9 (w : Word) : Bool := w &&& 0xF000 != 0x9000 || w &&& 0x000F == 0

/-- Class 0xB: no word is implemented (R61, R84). -/
def wellFormedClassB (w : Word) : Bool := w &&& 0xF000 != 0xB000

/-- Class 0xE: nn must be 0x9E or 0xA1 (R61). -/
def wellFormedClassE (w : Word) : Bool := w &&& 0xF000 != 0xE000 || [0x9E, 0xA1].contains (w &&& 0x00FF)

/-- Class 0xF: nn must be one of nine values (R61). -/
def wellFormedClassF (w : Word) : Bool :=
  w &&& 0xF000 != 0xF000 || [0x07, 0x0A, 0x15, 0x18, 0x1E, 0x29, 0x33, 0x55, 0x65].contains (w &&& 0x00FF)

/-- An implemented word: it falls in none of the seven sets of R61. -/
def wellFormedWord (w : Word) : Bool :=
  wellFormedClass0 w && wellFormedClass5 w && wellFormedClass8 w && wellFormedClass9 w && wellFormedClassB w &&
    wellFormedClassE w && wellFormedClassF w

/-- The 33 implemented operations of R1; `Bnnn` is the one row that is listed and not implemented. -/
def Instr.implemented : Instr → Bool
  | .jpV0 _ => false
  | .cls | .ret | .jp _ | .call _ | .seImm _ _ | .sneImm _ _ | .seReg _ _ | .ldImm _ _ | .addImm _ _ | .ldReg _ _ => true
  | .orReg _ _ | .andReg _ _ | .xorReg _ _ | .addReg _ _ | .subReg _ _ | .shr _ _ | .subnReg _ _ | .shl _ _ => true
  | .sneReg _ _ | .ldI _ | .rnd _ _ | .drw _ _ _ | .skp _ | .sknp _ | .ldVxDt _ | .ldVxK _ | .ldDtVx _ => true
  | .ldStVx _ | .addI _ | .ldF _ | .ldB _ | .ldMemVx _ | .ldVxMem _ => true

end Sys2Proof
end

