-- ==== Sys2Proof/Decode.lean ====
section
/-! DEFINITION. Decode and encode (spec 30_encoding.md). Decode is a pure total function of the word (R54): it extracts every
field (R55), then dispatch selects one row of R59 by the class and, in the classes that have one, the sub-selector, matching
every fixed digit (R58, R60); a word that no row matches is rejected by name (R61). -/

namespace Sys2Proof

/-- `w[hi:lo]`, the field of bits hi down to lo, as an unsigned number (R7). -/
def bits (w : Word) (hi lo : Nat) : Nat := w.toNat / 2 ^ lo % 2 ^ (hi + 1 - lo)

/-- The fields of an instruction word (R55). -/
structure Fields where
  cls : Fin 16
  x   : RegIdx
  y   : RegIdx
  n   : Fin 16
  nn  : Byte
  nnn : Addr12
  deriving DecidableEq, Repr

/-- Field extraction: always produces all fields (R54, R55, R70). -/
def fields (w : Word) : Fields where
  cls := Fin.ofNat 16 (bits w 15 12)
  x   := Fin.ofNat 16 (bits w 11 8)
  y   := Fin.ofNat 16 (bits w 7 4)
  n   := Fin.ofNat 16 (bits w 3 0)
  nn  := BitVec.ofNat 8 (bits w 7 0)
  nnn := BitVec.ofNat 12 (bits w 11 0)

/-- Class 0x0: x must be 0 and nn selects (R58, R60). -/
def dispatch0 (f : Fields) : Option Instr :=
  if f.x = 0 ∧ f.nn = 0xE0 then some .cls
  else if f.x = 0 ∧ f.nn = 0xEE then some .ret
  else none

/-- Class 0x8: n selects (R58, R59). -/
def dispatch8 (f : Fields) : Option Instr :=
  match f.n.val with
  | 0x0 => some (.ldReg f.x f.y)
  | 0x1 => some (.orReg f.x f.y)
  | 0x2 => some (.andReg f.x f.y)
  | 0x3 => some (.xorReg f.x f.y)
  | 0x4 => some (.addReg f.x f.y)
  | 0x5 => some (.subReg f.x f.y)
  | 0x6 => some (.shr f.x f.y)
  | 0x7 => some (.subnReg f.x f.y)
  | 0xE => some (.shl f.x f.y)
  | _   => none

/-- Class 0xE: nn selects (R58, R59). -/
def dispatchE (f : Fields) : Option Instr :=
  match f.nn.toNat with
  | 0x9E => some (.skp f.x)
  | 0xA1 => some (.sknp f.x)
  | _    => none

/-- Class 0xF: nn selects (R58, R59). -/
def dispatchF (f : Fields) : Option Instr :=
  match f.nn.toNat with
  | 0x07 => some (.ldVxDt f.x)
  | 0x0A => some (.ldVxK f.x)
  | 0x15 => some (.ldDtVx f.x)
  | 0x18 => some (.ldStVx f.x)
  | 0x1E => some (.addI f.x)
  | 0x29 => some (.ldF f.x)
  | 0x33 => some (.ldB f.x)
  | 0x55 => some (.ldMemVx f.x)
  | 0x65 => some (.ldVxMem f.x)
  | _    => none

/-- Dispatch: exactly one row of R59, or none (R58, R60, R61, R71). -/
def dispatch (f : Fields) : Option Instr :=
  match f.cls.val with
  | 0x0 => dispatch0 f
  | 0x1 => some (.jp f.nnn)
  | 0x2 => some (.call f.nnn)
  | 0x3 => some (.seImm f.x f.nn)
  | 0x4 => some (.sneImm f.x f.nn)
  | 0x5 => if f.n = 0 then some (.seReg f.x f.y) else none
  | 0x6 => some (.ldImm f.x f.nn)
  | 0x7 => some (.addImm f.x f.nn)
  | 0x8 => dispatch8 f
  | 0x9 => if f.n = 0 then some (.sneReg f.x f.y) else none
  | 0xA => some (.ldI f.nnn)
  | 0xB => some (.jpV0 f.nnn)
  | 0xC => some (.rnd f.x f.nn)
  | 0xD => some (.drw f.x f.y f.n)
  | 0xE => dispatchE f
  | 0xF => dispatchF f
  | _   => none

/-- Why decoding answers no instruction. -/
inductive DecodeReject where
  /-- Fewer than the 2 bytes of an instruction; a fetch always supplies 2 (R53, R68). -/
  | truncated
  /-- The word matches no row of the table (R61); executing it raises `UnimplementedOpcode` (R74). -/
  | unimplemented (w : Word)
  deriving DecidableEq, Repr

/-- What decoding answers. -/
inductive Decoded where
  | instr (i : Instr) (rest : List Byte)
  | reject (r : DecodeReject)
  deriving DecidableEq, Repr

/-- Decode one word (R54, R70, R71). -/
def decodeWord (w : Word) : Option Instr := dispatch (fields w)

/-- Decode the instruction at the head of a byte sequence, big-endian (R38, R53); always 2 bytes (R64). -/
def decode : List Byte → Decoded
  | hi :: lo :: rest =>
    match decodeWord (hi ++ lo) with
    | some i => .instr i rest
    | none   => .reject (.unimplemented (hi ++ lo))
  | _ => .reject .truncated

/-! ## The encoder, from the formats of R56 and the map of R59 -/

/-- Format `ADDR`: class and nnn. -/
def encAddr (cls : Nat) (nnn : Addr12) : Word := BitVec.ofNat 16 (cls * 0x1000 + nnn.toNat)

/-- Format `REG_IMM`, and `REG_SUB` where the byte is the sub-selector: class, x and a byte. -/
def encRegImm (cls : Nat) (x : RegIdx) (kk : Byte) : Word := BitVec.ofNat 16 (cls * 0x1000 + x.val * 0x100 + kk.toNat)

/-- Format `REG_REG`, and `DRAW` where the last nibble is the row count: class, x, y and a nibble. -/
def encRegReg (cls : Nat) (x y : RegIdx) (n : Nat) : Word :=
  BitVec.ofNat 16 (cls * 0x1000 + x.val * 0x100 + y.val * 0x10 + n)

/-- The word of an instruction (R56, R59). -/
def encode : Instr → Word
  | .cls          => 0x00E0
  | .ret          => 0x00EE
  | .jp nnn       => encAddr 0x1 nnn
  | .call nnn     => encAddr 0x2 nnn
  | .seImm x kk   => encRegImm 0x3 x kk
  | .sneImm x kk  => encRegImm 0x4 x kk
  | .seReg x y    => encRegReg 0x5 x y 0x0
  | .ldImm x kk   => encRegImm 0x6 x kk
  | .addImm x kk  => encRegImm 0x7 x kk
  | .ldReg x y    => encRegReg 0x8 x y 0x0
  | .orReg x y    => encRegReg 0x8 x y 0x1
  | .andReg x y   => encRegReg 0x8 x y 0x2
  | .xorReg x y   => encRegReg 0x8 x y 0x3
  | .addReg x y   => encRegReg 0x8 x y 0x4
  | .subReg x y   => encRegReg 0x8 x y 0x5
  | .shr x y      => encRegReg 0x8 x y 0x6
  | .subnReg x y  => encRegReg 0x8 x y 0x7
  | .shl x y      => encRegReg 0x8 x y 0xE
  | .sneReg x y   => encRegReg 0x9 x y 0x0
  | .ldI nnn      => encAddr 0xA nnn
  | .jpV0 nnn     => encAddr 0xB nnn
  | .rnd x kk     => encRegImm 0xC x kk
  | .drw x y n    => encRegReg 0xD x y n.val
  | .skp x        => encRegImm 0xE x 0x9E
  | .sknp x       => encRegImm 0xE x 0xA1
  | .ldVxDt x     => encRegImm 0xF x 0x07
  | .ldVxK x      => encRegImm 0xF x 0x0A
  | .ldDtVx x     => encRegImm 0xF x 0x15
  | .ldStVx x     => encRegImm 0xF x 0x18
  | .addI x       => encRegImm 0xF x 0x1E
  | .ldF x        => encRegImm 0xF x 0x29
  | .ldB x        => encRegImm 0xF x 0x33
  | .ldMemVx x    => encRegImm 0xF x 0x55
  | .ldVxMem x    => encRegImm 0xF x 0x65

/-- The two bytes of a word as memory holds them: bits 15..8 first (R38). -/
def bytesOfWord (w : Word) : List Byte := [BitVec.ofNat 8 (bits w 15 8), BitVec.ofNat 8 (bits w 7 0)]

/-- The word whose low `nbits` bits are those of `w`, every bit above them 0. -/
def tableWord (nbits w : Nat) : Word := BitVec.ofNat 16 (w % 2 ^ nbits)

/-- The instruction the decoder reads from a word numbered as spec/opcode_table.json numbers it (bit 0 the least significant
of the one 16-bit word of an instruction, R53), laid out in memory big-endian. -/
def decodeTableWord (nbits w : Nat) : Option Instr :=
  match decode (bytesOfWord (tableWord nbits w)) with
  | .instr i _ => some i
  | .reject _  => none

end Sys2Proof
end

