-- ==== Sys2Proof/Machine/State.lean ====
section
/-! DEFINITION. The state of the core (spec 10_state.md R13 to R28) as plain data, what the step port gives the host (spec
00_scope.md R12, 60_exceptions.md R124), and the state after construction (R29, R146). -/

namespace Sys2Proof.Machine

/-- The error kinds (R124). -/
inductive ErrorKind where
  /-- Fetch or indexed access outside [0,4096) (R69, R105 to R107, R114). -/
  | memoryBounds
  /-- A call with SP = 16 (R79). -/
  | stackOverflow
  /-- A return with SP = 0 (R77). -/
  | stackUnderflow
  /-- A word with no defined semantics, every `Bnnn` among them (R74, R84). -/
  | unimplementedOpcode
  /-- `Ex9E` or `ExA1` with V[x] > 0xF (R115). -/
  | keyIndex
  /-- A program of more than 3584 bytes; the load operation only, never a step (R149). -/
  | programTooLarge
  deriving DecidableEq, Repr

/-- What one step returns to the host (R12, R67). -/
inductive StepOutcome where
  | completed
  | waitingForKey
  | error (e : ErrorKind)
  deriving DecidableEq, Repr

/-- A pending key wait, `pending(x, prev)` (R24). -/
structure KeyWait where
  /-- The register that receives the key number. -/
  x    : RegIdx
  /-- The key snapshot of the last poll. -/
  prev : Keys
  deriving DecidableEq, Repr

/-- Memory as a sorted list of cells (address, byte); an address that is not listed reads as its value after construction
(`Memory.unlisted`). The canonical form is `Memory.wf`. -/
abbrev Memory := List Host.Cell

/-- The state of the core: exactly the elements of R13, and nothing else. -/
structure CoreState where
  /-- `M`, 4096 bytes (R27, R33). -/
  mem   : Memory
  /-- `V[0..15]`; V[15] is VF (R14, R15). -/
  v     : Vector Byte 16
  /-- `PC` (R17). -/
  pc    : Word
  /-- `I` (R20). -/
  i     : Word
  /-- `SP`, 0..16 (R21). -/
  sp    : Fin 17
  /-- `stack[0..15]` (R22). -/
  stack : Vector Word 16
  /-- `DT` (R23). -/
  dt    : Byte
  /-- `ST` (R23). -/
  st    : Byte
  /-- `WAIT` (R24). -/
  wait  : Option KeyWait
  /-- `FB[py][px]` (R25). -/
  fb    : Framebuffer
  deriving DecidableEq, Repr

/-- The state of the machine: the core's state, the inputs of the current step (R28: the host's, not the core's), and the
record of what the step port returned (R130, D16: a record that a model keeps outside the core's state). The fields below are
the model's own; only `keys` and `rand8` are read by an instruction, and every step sets both before it does anything. -/
structure State extends CoreState where
  /-- `keys`, the key vector sampled in the current step (R9, R140). -/
  keys     : Keys
  /-- `rand8`, the random byte supplied for the current step (R9, R141). -/
  rand8    : Byte
  /-- How many steps have sampled their inputs; the argument of the free values `Config.keyInput` and `Config.randomByte`. -/
  samples  : Nat
  /-- What the last step returned (R12); none before the first. Nothing reads it. -/
  outcome  : Option StepOutcome
  /-- Every error returned so far, newest first, never cleared (D16), not by the construction of a new core either (the
  model's choice, log 2). Nothing reads it. -/
  errorLog : List ErrorKind
  deriving DecidableEq, Repr

/-- Why a machine built on the core may stop. The core itself never does: it returns every error to the host with a state it
can be stepped on from (R125, R129, R130), so `step` answers a next state for it and raises no fault. -/
inductive Fault where
  /-- The host's driving loop halted because a step returned this error ("The driving loop decides whether to halt
  execution", R125). Raised by `stepOrHalt` of Safety.lean alone, never by `step`. Safe: a run that ends so claims nothing more. -/
  | halted (e : ErrorKind)
  deriving DecidableEq, Repr

/-- Why an instruction has no meaning in the model. -/
inductive Refusal where
  /-- The instruction of this mnemonic is not modelled. Raised by no arm: every instruction has its meaning. Safe: a run that
  ends so claims nothing more. -/
  | notModelled (mnemonic : String)
  deriving DecidableEq, Repr

/-- What a step of the machine answers. -/
abbrev Result := Host.Outcome State Fault Refusal

/-- The core after construction (R29, R146): nothing listed in memory (so 0x000..0x04F read as FONT_ROM and the rest as 0),
all registers 0, PC = 0x200, an empty stack, no wait, a clear framebuffer. The values are the spec's decisions D1 to D5
(log 5); those of the model's own fields are log 4. -/
def State.reset : State where
  mem      := []
  v        := Vector.replicate 16 0
  pc       := 0x200
  i        := 0
  sp       := 0
  stack    := Vector.replicate 16 0
  dt       := 0
  st       := 0
  wait     := none
  fb       := Vector.replicate 32 (Vector.replicate 64 false)
  keys     := Vector.replicate 16 false
  rand8    := 0
  samples  := 0
  outcome  := none
  errorLog := []

end Sys2Proof.Machine
end

