-- ==== Sys2Proof/Machine/Ops.lean ====
section
/-! DEFINITION. The named operations over the state: one setter a state element, the registers, the call stack, memory with
its two bounds-checked primitives (spec 20_memory.md R36, R37), what a step returns (completion, waiting, and RAISING AN
ERROR, the one way an instruction or a fetch fails), the skip, and the fetch. -/

namespace Sys2Proof.Machine

/-! ## One setter a state element -/

def State.withMem (s : State) (m : Memory) : State := { s with mem := m }
def State.withV (s : State) (v : Vector Byte 16) : State := { s with v := v }
def State.withPc (s : State) (a : Word) : State := { s with pc := a }
def State.withI (s : State) (a : Word) : State := { s with i := a }
def State.withSp (s : State) (k : Fin 17) : State := { s with sp := k }
def State.withStack (s : State) (st : Vector Word 16) : State := { s with stack := st }
def State.withDt (s : State) (b : Byte) : State := { s with dt := b }
def State.withSt (s : State) (b : Byte) : State := { s with st := b }
def State.withWait (s : State) (w : Option KeyWait) : State := { s with wait := w }
def State.withFb (s : State) (fb : Framebuffer) : State := { s with fb := fb }

/-- The inputs of a step, sampled at its start (R67, R140, R141). -/
def State.sample (s : State) (keys : Keys) (rand8 : Byte) : State :=
  { s with keys := keys, rand8 := rand8, samples := s.samples + 1 }

/-! ## What a step returns -/

/-- The step returns `Completed` (R72). -/
def State.completed (s : State) : State := { s with outcome := some .completed }

/-- The step returns `WaitingForKey` (R118, R119). -/
def State.waiting (s : State) : State := { s with outcome := some .waitingForKey }

/-- RAISING AN ERROR (`raise E`, R10, R73, R125 to R130): the step returns `Error(E)` and commits the state the error is raised
in, which is the post-fetch state for an instruction (R73) and the unchanged state for a fetch (R69). No control transfer, no
saved register, no latch: the core can be stepped on from there (R128 to R130). There is no return from an error (R129). -/
def State.raise (s : State) (e : ErrorKind) : State := { s with outcome := some (.error e), errorLog := e :: s.errorLog }

/-- The codes of the error kinds, 1..6 (R124; the numbers are the spec's decision D17). -/
def ErrorKind.code : ErrorKind → Nat
  | .memoryBounds        => 1
  | .stackOverflow       => 2
  | .stackUnderflow      => 3
  | .unimplementedOpcode => 4
  | .keyIndex            => 5
  | .programTooLarge     => 6

/-! ## General registers -/

/-- VF (R15). -/
def flagReg : RegIdx := 15

/-- Read `V[x]` (R9, R14). -/
def State.reg (s : State) (x : RegIdx) : Byte := s.v.get x

/-- Write `V[x] <- b` (R9, R14). -/
def State.setReg (s : State) (x : RegIdx) (b : Byte) : State := s.withV (s.v.set x.val b x.isLt)

/-! ## Call stack -/

/-- Push a return address: none when SP = 16 (R21, R79). -/
def State.push (s : State) (a : Word) : Option State :=
  if h : s.sp.val < 16 then
    some ((s.withStack (s.stack.set s.sp.val a h)).withSp ⟨s.sp.val + 1, by omega⟩)
  else none

/-- Pop a return address: none when SP = 0; the slot keeps its value (R21, R22, R77). -/
def State.pop (s : State) : Option (Word × State) :=
  if h : s.sp.val = 0 then none
  else some (s.stack.get ⟨s.sp.val - 1, by omega⟩, s.withSp ⟨s.sp.val - 1, by omega⟩)

/-! ## Memory -/

/-- What an address that is not listed reads as: its byte after construction (R29, D3, D5), FONT_ROM below 0x050 and 0x00
above. Log 8. -/
def Memory.unlisted (a : Nat) : Byte := if h : a < 80 then Config.fontRom[a] else 0

/-- `M[a]` (R9, R35). -/
def Memory.read : Memory → Nat → Byte
  | [], a => Memory.unlisted a
  | c :: m, a => if a = c.1 then c.2 else Memory.read m a

/-- Every cell of address a taken out. -/
def Memory.erase (m : Memory) (a : Nat) : Memory := m.filter fun c => c.1 ≠ a

/-- A cell put in before the first higher address. -/
def Memory.insert (a : Nat) (b : Byte) : Memory → Memory
  | [] => [(a, b)]
  | c :: m => if a < c.1 then (a, b) :: c :: m else c :: Memory.insert a b m

/-- `M[a] <- b`, keeping the canonical form: a byte equal to what the unlisted address reads as is not listed. -/
def Memory.write (m : Memory) (a : Nat) (b : Byte) : Memory :=
  if b = Memory.unlisted a then m.erase a else (m.erase a).insert a b

/-- The canonical form: addresses strictly rising and inside the address space (R33), and no entry equal to what an unlisted
address reads as. -/
abbrev Memory.wf (m : Memory) : Prop :=
  m.Pairwise (fun c d => c.1 < d.1) ∧ ∀ c ∈ m, c.1 < 0x1000 ∧ c.2 ≠ Memory.unlisted c.1

/-- The n bytes `M[a], ..., M[a+n-1]` in address order. -/
def Memory.readBytes (m : Memory) (a n : Nat) : List Byte := (List.range n).map fun k => m.read (a + k)

/-- `M[a+k] <- bytes[k]` for every k, in ascending order (R39). -/
def Memory.writeBytes (m : Memory) (a : Nat) : List Byte → Memory
  | [] => m
  | b :: bs => Memory.writeBytes (m.write a b) (a + 1) bs

/-- The bounds check of R36 and R37: all of a .. a+n-1 lies in 0x000..0xFFF, with no wrap (R46). Used for n >= 1. -/
abbrev inBounds (a n : Nat) : Prop := a + n ≤ Config.memSize

/-- `MemRead(a, n)` (R36): none is MemoryBoundsError. -/
def State.memRead (s : State) (a n : Nat) : Option (List Byte) :=
  if inBounds a n then some (s.mem.readBytes a n) else none

/-- `MemWrite(a, n, bytes)` with n the length of bytes (R37): none is MemoryBoundsError, and nothing is written. -/
def State.memWrite (s : State) (a : Nat) (bytes : List Byte) : Option State :=
  if inBounds a bytes.length then some (s.withMem (s.mem.writeBytes a bytes)) else none

/-! ## Program counter -/

/-- A skip: PC <- (PC + 2) mod 2^16, on the post-fetch PC; the skipped word is not looked at (R86). -/
def State.skip (s : State) : State := s.withPc (s.pc + 2)

/-- A skip taken when the condition holds (R80 to R83, R116, R117). -/
def State.skipIf (s : State) (c : Bool) : State := if c then s.skip else s

/-- Fetch (R68): the two bytes at PC and PC+1, and the state with PC advanced by 2; none is MemoryBoundsError, when PC + 1 is
outside memory (R69). No alignment is checked (R40). -/
def State.fetch (s : State) : Option (List Byte × State) :=
  (s.memRead s.pc.toNat 2).map fun bytes => (bytes, s.withPc (s.pc + 2))

end Sys2Proof.Machine
end

