-- ==== Sys2Proof/Machine/Operands.lean ====
section
/-! DEFINITION. The operand forms of spec 30_encoding.md R57 and R63, the one addressing mode (spec 20_memory.md R46,
43_index_memory.md R108), and the operands of the sprite draw (spec 44_display.md R109, R111). -/

namespace Sys2Proof.Machine

/-- `zext_16(nnn)`: an absolute address 0x000..0xFFF (R57). -/
def zext16 (nnn : Addr12) : Word := nnn.setWidth 16

/-- The effective address I + offset, an unbounded integer (R46, R108). -/
def State.indexed (s : State) (offset : Nat) : Nat := s.i.toNat + offset

/-- The register block `V[0], V[1], ..., V[x]` (R57, R106). -/
def State.regBlock (s : State) (x : RegIdx) : List Byte := s.v.toList.take (x.val + 1)

/-- `for i in 0..: V[i] <- bytes[i]`; a register past the bytes keeps its value (R107). -/
def State.setRegBlock (s : State) (bytes : List Byte) : State :=
  s.withV (Vector.ofFn fun k : Fin 16 => bytes[k.val]?.getD (s.v.get k))

/-- The three decimal digits of a byte: hundreds, tens, ones (R105). -/
def decimalDigits (v : Byte) : List Byte :=
  [BitVec.ofNat 8 (v.toNat / 100), BitVec.ofNat 8 (v.toNat / 10 % 10), BitVec.ofNat 8 (v.toNat % 10)]

/-- The address of the glyph V[x] of the font: V[x] * 5, at most 0x4FB, no masking (R104, D27). -/
def glyphAddress (v : Byte) : Word := BitVec.ofNat 16 (v.toNat * Config.glyphSize)

/-- The origin column `V[x] mod 64` (R111, R113). -/
def originColumn (v : Byte) : Nat := v.toNat % 64

/-- The origin row `V[y] mod 32` (R111, R113). -/
def originRow (v : Byte) : Nat := v.toNat % 32

/-- Column c of a sprite row: bit 7 - c of its byte (R109). -/
def spriteBit (row : Byte) (c : Nat) : Bool := row.getLsbD (7 - c)

/-- The key number in V[x] as a key index: none when it is above 0xF; never masked (R115). -/
def keyIndex (v : Byte) : Option (Fin 16) := if h : v.toNat < 16 then some ⟨v.toNat, h⟩ else none

/-- The least key of a sample that is down, and was up in the snapshot prev (R119 `edge`). -/
def leastNewKey (keys prev : Keys) : Option (Fin 16) :=
  (List.finRange 16).find? fun k => keys.get k && !prev.get k

/-- The least key of a sample that is down (R118, R119 `level`). -/
def leastKey (keys : Keys) : Option (Fin 16) := (List.finRange 16).find? fun k => keys.get k

/-- A key number as a byte: 0x00..0x0F (R118). -/
def keyNumber (k : Fin 16) : Byte := BitVec.ofNat 8 k.val

end Sys2Proof.Machine
end

