-- ==== Sys2Proof/Machine/Flags.lean ====
section
/-! DEFINITION. The flag computations (spec 42_alu.md R87, R94 to R99; spec 44_display.md R111, R112) and the order in which a
result and its flag are written (R87). -/

namespace Sys2Proof.Machine

/-- A flag value as the byte VF receives. -/
def flagByte (f : Bool) : Byte := if f then 1 else 0

/-- `8xy4`: 1 exactly when the sum exceeds 255 (R94). -/
def carryFlag (a b : Byte) : Byte := flagByte (decide (a.toNat + b.toNat > 255))

/-- `8xy5` on (Vx, Vy) and `8xy7` on (Vy, Vx): 1 exactly when the first is greater, strictly (R95, R97). -/
def greaterFlag (a b : Byte) : Byte := flagByte (decide (a.toNat > b.toNat))

/-- `8xy6`: the bit shifted out, old bit 0 (R96). -/
def shiftRightFlag (a : Byte) : Byte := a &&& 1

/-- `8xyE`: the bit shifted out, old bit 7 (R98). -/
def shiftLeftFlag (a : Byte) : Byte := a >>> 7

/-- A sprite bit of 1 on a pixel that is on is a collision (R111, R112). -/
def collides (bit old : Bool) : Bool := bit && old

/-- The write order of R87: V[x] <- result, then V[F] <- flag, both computed before either write. -/
def State.setRegFlag (s : State) (x : RegIdx) (result flag : Byte) : State := (s.setReg x result).setReg flagReg flag

end Sys2Proof.Machine
end

