-- ==== Sys2Proof/Machine/Alu.lean ====
section
/-! DEFINITION. Register loads and the 8-bit ALU (spec 42_alu.md). BitVec arithmetic on bytes wraps mod 256 (R99). -/

namespace Sys2Proof.Machine

/-- `6xkk` LD Vx, kk (R88). -/
def execLdImm (x : RegIdx) (kk : Byte) (s : State) : Result := .next (s.setReg x kk).completed

/-- `7xkk` ADD Vx, kk, no flag (R89). -/
def execAddImm (x : RegIdx) (kk : Byte) (s : State) : Result := .next (s.setReg x (s.reg x + kk)).completed

/-- `8xy0` LD Vx, Vy (R90). -/
def execLdReg (x y : RegIdx) (s : State) : Result := .next (s.setReg x (s.reg y)).completed

/-- `8xy1` OR Vx, Vy; VF is not reset (R91). -/
def execOrReg (x y : RegIdx) (s : State) : Result := .next (s.setReg x (s.reg x ||| s.reg y)).completed

/-- `8xy2` AND Vx, Vy; VF is not reset (R92). -/
def execAndReg (x y : RegIdx) (s : State) : Result := .next (s.setReg x (s.reg x &&& s.reg y)).completed

/-- `8xy3` XOR Vx, Vy; VF is not reset (R93). -/
def execXorReg (x y : RegIdx) (s : State) : Result := .next (s.setReg x (s.reg x ^^^ s.reg y)).completed

/-- `8xy4` ADD Vx, Vy with the carry flag (R94). -/
def execAddReg (x y : RegIdx) (s : State) : Result :=
  .next (s.setRegFlag x (s.reg x + s.reg y) (carryFlag (s.reg x) (s.reg y))).completed

/-- `8xy5` SUB Vx, Vy (R95). -/
def execSubReg (x y : RegIdx) (s : State) : Result :=
  .next (s.setRegFlag x (s.reg x - s.reg y) (greaterFlag (s.reg x) (s.reg y))).completed

/-- `8xy6` SHR Vx; y is ignored (R96, R63). -/
def execShr (x _y : RegIdx) (s : State) : Result :=
  .next (s.setRegFlag x (s.reg x >>> 1) (shiftRightFlag (s.reg x))).completed

/-- `8xy7` SUBN Vx, Vy (R97). -/
def execSubnReg (x y : RegIdx) (s : State) : Result :=
  .next (s.setRegFlag x (s.reg y - s.reg x) (greaterFlag (s.reg y) (s.reg x))).completed

/-- `8xyE` SHL Vx; y is ignored (R98, R63). -/
def execShl (x _y : RegIdx) (s : State) : Result :=
  .next (s.setRegFlag x (s.reg x <<< 1) (shiftLeftFlag (s.reg x))).completed

/-- `Cxkk` RND Vx, kk, on the byte supplied for this step (R100, R101). -/
def execRnd (x : RegIdx) (kk : Byte) (s : State) : Result := .next (s.setReg x (s.rand8 &&& kk)).completed

end Sys2Proof.Machine
end

