-- ==== Sys2Proof/Machine/Display.lean ====
section
/-! DEFINITION. The framebuffer and the sprite engine (spec 44_display.md). The draw is the source's loop: rows top to bottom,
columns left to right, each pixel clipped, XORed and checked for collision. -/

namespace Sys2Proof.Machine

/-- Pixel (px, py), that is `FB[py][px]` (R109). -/
def pixel (fb : Framebuffer) (py : Fin 32) (px : Fin 64) : Bool := (fb.get py).get px

/-- All 2048 pixels off (R110). -/
def clearFramebuffer : Framebuffer := Vector.replicate 32 (Vector.replicate 64 false)

/-- One sprite bit at column px and row py: clipped outside the grid; else XORed in, and a collision joins the flag
(R111 to R113). -/
def drawPixel (px py : Nat) (bit : Bool) (acc : Framebuffer × Bool) : Framebuffer × Bool :=
  if h : px < 64 ∧ py < 32 then
    let old := pixel acc.1 ⟨py, h.2⟩ ⟨px, h.1⟩
    (acc.1.set py ((acc.1.get ⟨py, h.2⟩).set px (old ^^ bit) h.1) h.2, acc.2 || collides bit old)
  else acc

/-- The 8 columns of one sprite row, from origin column cx, at row py (R111). -/
def drawRow (cx py : Nat) (row : Byte) (acc : Framebuffer × Bool) : Framebuffer × Bool :=
  (List.range 8).foldl (fun acc c => drawPixel (cx + c) py (spriteBit row c) acc) acc

/-- The rows of a sprite, from row py downwards (R111). -/
def drawRows (cx : Nat) : Nat → List Byte → Framebuffer × Bool → Framebuffer × Bool
  | _, [], acc => acc
  | py, row :: rows, acc => drawRows cx (py + 1) rows (drawRow cx py row acc)

/-- `00E0` CLS (R110). -/
def execCls (s : State) : Result := .next (s.withFb clearFramebuffer).completed

/-- The sprite rows: none read when n = 0, else `MemRead(I, n)`, clipped rows included (R111, R114). -/
def State.spriteRows (s : State) (n : Fin 16) : Option (List Byte) :=
  if n.val = 0 then some [] else s.memRead (s.indexed 0) n.val

/-- `Dxyn` DRW Vx, Vy, n (R111): the origin is read before VF is written, and VF is written last. -/
def execDrw (x y : RegIdx) (n : Fin 16) (s : State) : Result :=
  .next (match s.spriteRows n with
    | none      => s.raise .memoryBounds
    | some rows =>
      let drawn := drawRows (originColumn (s.reg x)) (originRow (s.reg y)) rows (s.fb, false)
      ((s.withFb drawn.1).setReg flagReg (flagByte drawn.2)).completed)

end Sys2Proof.Machine
end

