-- ==== Sys2Proof/Machine/Flow.lean ====
section
/-! DEFINITION. Control transfer (spec 41_control_flow.md). Every meaning runs on the post-fetch state: PC already holds the
address of the next instruction (R72). -/

namespace Sys2Proof.Machine

/-- `00EE` RET (R77). -/
def execRet (s : State) : Result :=
  .next (match s.pop with
    | none         => s.raise .stackUnderflow
    | some (a, s') => (s'.withPc a).completed)

/-- `1nnn` JP nnn (R78). -/
def execJp (nnn : Addr12) (s : State) : Result := .next (s.withPc (zext16 nnn)).completed

/-- `2nnn` CALL nnn (R79): the pushed PC is the post-fetch PC. -/
def execCall (nnn : Addr12) (s : State) : Result :=
  .next (match s.push s.pc with
    | none    => s.raise .stackOverflow
    | some s' => (s'.withPc (zext16 nnn)).completed)

/-- `3xkk` SE Vx, kk (R80). -/
def execSeImm (x : RegIdx) (kk : Byte) (s : State) : Result := .next (s.skipIf (s.reg x == kk)).completed

/-- `4xkk` SNE Vx, kk (R81). -/
def execSneImm (x : RegIdx) (kk : Byte) (s : State) : Result := .next (s.skipIf (s.reg x != kk)).completed

/-- `5xy0` SE Vx, Vy (R82). -/
def execSeReg (x y : RegIdx) (s : State) : Result := .next (s.skipIf (s.reg x == s.reg y)).completed

/-- `9xy0` SNE Vx, Vy (R83). -/
def execSneReg (x y : RegIdx) (s : State) : Result := .next (s.skipIf (s.reg x != s.reg y)).completed

/-- `Bnnn` (R84): the instruction's whole effect is to raise UnimplementedOpcode. Log 12. -/
def execJpV0 (_nnn : Addr12) (s : State) : Result := .next (s.raise .unimplementedOpcode)

end Sys2Proof.Machine
end

