-- ==== Sys2Proof/Machine/Index.lean ====
section
/-! DEFINITION. The index register and memory transfers (spec 43_index_memory.md). I is changed by its three own instructions
only, and every access is checked whole before anything is written (R36, R37, R108). -/

namespace Sys2Proof.Machine

/-- `Annn` LD I, nnn (R102). -/
def execLdI (nnn : Addr12) (s : State) : Result := .next (s.withI (zext16 nnn)).completed

/-- `Fx1E` ADD I, Vx: mod 2^16, no flag (R103, D28). -/
def execAddI (x : RegIdx) (s : State) : Result := .next (s.withI (s.i + (s.reg x).setWidth 16)).completed

/-- `Fx29` LD F, Vx (R104). -/
def execLdF (x : RegIdx) (s : State) : Result := .next (s.withI (glyphAddress (s.reg x))).completed

/-- A store of bytes at I, complete or not at all (R37, R105, R106). -/
def State.storeAtI (s : State) (bytes : List Byte) : State :=
  match s.memWrite (s.indexed 0) bytes with
  | none    => s.raise .memoryBounds
  | some s' => s'.completed

/-- `Fx33` LD B, Vx: the decimal digits at I, I+1, I+2 (R105). -/
def execLdB (x : RegIdx) (s : State) : Result := .next (s.storeAtI (decimalDigits (s.reg x)))

/-- `Fx55` LD [I], Vx: V0..Vx at I..I+x (R106). -/
def execLdMemVx (x : RegIdx) (s : State) : Result := .next (s.storeAtI (s.regBlock x))

/-- `Fx65` LD Vx, [I]: V0..Vx from I..I+x (R107). -/
def execLdVxMem (x : RegIdx) (s : State) : Result :=
  .next (match s.memRead (s.indexed 0) (x.val + 1) with
    | none       => s.raise .memoryBounds
    | some bytes => (s.setRegBlock bytes).completed)

end Sys2Proof.Machine
end

