-- ==== Sys2Proof/Machine/Keypad.lean ====
section
/-! DEFINITION. Keypad and timer instructions (spec 45_keypad_timers.md), and the waiting step of a pending key wait (R119). -/

namespace Sys2Proof.Machine

/-- A skip on a key: KeyIndexError when V[x] > 0xF, else a skip when the level of the key is the one asked for
(R115 to R117). -/
def State.skipOnKey (s : State) (x : RegIdx) (pressed : Bool) : State :=
  match keyIndex (s.reg x) with
  | none   => s.raise .keyIndex
  | some k => (s.skipIf (s.keys.get k == pressed)).completed

/-- `Ex9E` SKP Vx (R116). -/
def execSkp (x : RegIdx) (s : State) : Result := .next (s.skipOnKey x true)

/-- `ExA1` SKNP Vx (R117). -/
def execSknp (x : RegIdx) (s : State) : Result := .next (s.skipOnKey x false)

/-- A wait that goes on: the latch holds the register and this step's sample (R118, R119). -/
def State.suspend (s : State) (x : RegIdx) : State := (s.withWait (some ⟨x, s.keys⟩)).waiting

/-- `Fx0A` in each mode (R118). -/
def State.beginKeyWait (mode : KeywaitMode) (x : RegIdx) (s : State) : State :=
  match mode with
  | .edge  => s.suspend x
  | .level =>
    match leastKey s.keys with
    | some k => (s.setReg x (keyNumber k)).completed
    | none   => s.suspend x

/-- `Fx0A` LD Vx, K (R118), in the mode of the core (log 7). -/
def execLdVxK (x : RegIdx) (s : State) : Result := .next (s.beginKeyWait Config.keywaitMode x)

/-- A key ends the wait: its number goes to V[x] and the latch is cleared; no instruction is executed (R119). -/
def State.endKeyWait (s : State) (x : RegIdx) (k : Fin 16) : State := ((s.setReg x (keyNumber k)).withWait none).completed

/-- The waiting step in each mode (R119): in `edge` the snapshot is renewed at every unsuccessful poll, in `level` the latch
keeps the one it has. -/
def State.waitStep (mode : KeywaitMode) (w : KeyWait) (s : State) : State :=
  match mode with
  | .edge =>
    match leastNewKey s.keys w.prev with
    | some k => s.endKeyWait w.x k
    | none   => s.suspend w.x
  | .level =>
    match leastKey s.keys with
    | some k => s.endKeyWait w.x k
    | none   => s.waiting

/-- `Fx07` LD Vx, DT (R120). -/
def execLdVxDt (x : RegIdx) (s : State) : Result := .next (s.setReg x s.dt).completed

/-- `Fx15` LD DT, Vx (R121). -/
def execLdDtVx (x : RegIdx) (s : State) : Result := .next (s.withDt (s.reg x)).completed

/-- `Fx18` LD ST, Vx (R122). -/
def execLdStVx (x : RegIdx) (s : State) : Result := .next (s.withSt (s.reg x)).completed

end Sys2Proof.Machine
end

