-- ==== Sys2Proof/Machine/Cycle.lean ====
section
/-! DEFINITION. The step port with its inputs given (spec 40_step_cycle.md R67), and where a test places an instruction. -/

namespace Sys2Proof.Machine

/-- The body of a step on sampled inputs (R67, R127): the waiting step when a wait is pending; else fetch, decode, dispatch and
execute. A fetch outside memory raises MemoryBoundsError in the unchanged state (R69); a word that no row matches raises
UnimplementedOpcode in the post-fetch state (R74). -/
def State.cycle (s : State) : Result :=
  match s.wait with
  | some w => .next (s.waitStep Config.keywaitMode w)
  | none =>
    match s.fetch with
    | none => .next (s.raise .memoryBounds)
    | some (bytes, s') =>
      match decode bytes with
      | .reject _  => .next (s'.raise .unimplementedOpcode)
      | .instr i _ => exec i s'

/-- `step(keys, rand8)` (R67): one step with the key vector and the random byte the host supplies for it. -/
def stepWith (keys : Keys) (rand8 : Byte) (s : State) : Result := (s.sample keys rand8).cycle

/-- The state with the instruction word placed at PC, big-endian (R38), ready for the very next step to fetch: a pending wait is
cleared, and a PC whose fetch would fail is set to the entry point 0x200. Log 9. -/
def State.placeWord (s : State) (w : Word) : State :=
  let s := (if s.pc.toNat + 1 < Config.memSize then s else s.withPc 0x200).withWait none
  s.withMem (s.mem.writeBytes s.pc.toNat (bytesOfWord w))

end Sys2Proof.Machine
end

