-- ==== Sys2Proof/Machine/Step.lean ====
section
/-! DEFINITION. One step of the machine: the step port (spec 40_step_cycle.md R67) on inputs that are any value (spec
60_exceptions.md R140, R141). -/

namespace Sys2Proof.Machine

/-- One step with the free inputs of this step: whatever key vector and random byte the host supplies (D20, D23, log 3). -/
def step (s : State) : Host.Outcome State Fault Refusal :=
  stepWith (Config.keyInput s.samples) (Config.randomByte s.samples) s

/-- The state with a table word placed where step fetches its next instruction. -/
def State.withFetchWord (s : State) (nbits w : Nat) : State := s.placeWord (tableWord nbits w)

end Sys2Proof.Machine
end

