-- ==== Sys2Proof/Machine/Ports.lean ====
section
/-! DEFINITION. The host's ports other than step (spec 60_exceptions.md R135 to R143, 70_reset_and_hazards.md R146 to R150),
and every serialised order of host operations (R48, R143). -/

namespace Sys2Proof.Machine

/-- One timer counted down, stopping at 0 (R135). -/
def countDown (b : Byte) : Byte := if b.toNat > 0 then b - 1 else b

/-- `tick_timers()` (R135). -/
def State.tickTimers (s : State) : State := (s.withDt (countDown s.dt)).withSt (countDown s.st)

/-- What a load returns to the host (R12, R148, R149). -/
inductive LoadOutcome where
  | ok
  | error (e : ErrorKind)
  deriving DecidableEq, Repr

/-- `load(bytes)` (R148 to R150): copies the program to 0x200 and on, and writes nothing else; a program of more than 3584 bytes
is refused with ProgramTooLarge and nothing is written (the error joins the model's own record, D16). -/
def State.load (s : State) (bytes : List Byte) : LoadOutcome × State :=
  if bytes.length ≤ Config.progMax then (.ok, s.withMem (s.mem.writeBytes Config.progBase bytes))
  else (.error .programTooLarge, { s with errorLog := .programTooLarge :: s.errorLog })

/-- The framebuffer view: the 2048 pixels as they stand between steps (R142). -/
def State.framebufferView (s : State) : Framebuffer := s.fb

/-- The sound timer view (R137). -/
def State.soundView (s : State) : Byte := s.st

/-- The host operations that change the core (R138): a step with the inputs the host supplies for it, a tick, a load, and the
construction of a new core. The two views change nothing. -/
inductive HostOp where
  | construct
  | load (bytes : List Byte)
  | step (keys : Keys) (rand8 : Byte)
  | tick
  deriving DecidableEq, Repr

/-- The state a result leaves: the next state; a machine that stopped stays where it was. -/
def State.after (s : State) : Result → State
  | .next t    => t
  | .fault _   => s
  | .refused _ => s

/-- A new core (R146, R147): everything as `State.reset` has it, but for the model's own record of errors, which goes on. DESIGN
CHOICE (log 2): decision D16 says the record is never cleared and does not name construction; the model keeps it. -/
def State.construct (s : State) : State := { State.reset with errorLog := s.errorLog }

/-- One host operation, run whole (R143). -/
def State.applyOp (s : State) : HostOp → State
  | .construct        => s.construct
  | .load bytes       => (s.load bytes).2
  | .step keys rand8  => s.after (stepWith keys rand8 s)
  | .tick             => s.tickTimers

/-- A sequence of host operations, in the order the host chose (R48, R143, D19). -/
def State.runOps (s : State) (ops : List HostOp) : State := ops.foldl State.applyOp s

end Sys2Proof.Machine
end

