-- ==== Sys2Proof/Safety.lean ====
section
/-! DEFINITION. The terms claims use: the invariant of every reachable state (spec 10_state.md R18, R32), what a step fetches,
the state elements an instruction may write (spec 40_step_cycle.md R76), the end of a run (spec 70_reset_and_hazards.md R152)
and a run without an error (spec 60_exceptions.md R130, D16). -/

namespace Sys2Proof

/-! ## What an instruction may write (R15, R20 to R25, R76) -/

/-- The instructions that write VF as a flag (R15). -/
def Instr.writesFlag : Instr → Bool
  | .addReg _ _ | .subReg _ _ | .shr _ _ | .subnReg _ _ | .shl _ _ | .drw _ _ _ => true
  | .cls | .ret | .jp _ | .call _ | .seImm _ _ | .sneImm _ _ | .seReg _ _ | .ldImm _ _ | .addImm _ _ | .ldReg _ _ => false
  | .orReg _ _ | .andReg _ _ | .xorReg _ _ | .sneReg _ _ | .ldI _ | .jpV0 _ | .rnd _ _ | .skp _ | .sknp _ => false
  | .ldVxDt _ | .ldVxK _ | .ldDtVx _ | .ldStVx _ | .addI _ | .ldF _ | .ldB _ | .ldMemVx _ | .ldVxMem _ => false

/-- Register r is a destination of the instruction, its flag aside (R14, R15). -/
def Instr.hasDestination (r : RegIdx) : Instr → Bool
  | .ldImm x _ | .addImm x _ | .ldReg x _ | .orReg x _ | .andReg x _ | .xorReg x _ | .addReg x _ | .subReg x _ => r == x
  | .shr x _ | .subnReg x _ | .shl x _ | .rnd x _ | .ldVxDt x | .ldVxK x => r == x
  | .ldVxMem x => decide (r ≤ x)
  | .cls | .ret | .jp _ | .call _ | .seImm _ _ | .sneImm _ _ | .seReg _ _ | .sneReg _ _ | .ldI _ | .jpV0 _ => false
  | .drw _ _ _ | .skp _ | .sknp _ | .ldDtVx _ | .ldStVx _ | .addI _ | .ldF _ | .ldB _ | .ldMemVx _ => false

/-- How many bytes the instruction stores, from address I on (R41). -/
def Instr.storeLength : Instr → Nat
  | .ldB _ => 3
  | .ldMemVx x => x.val + 1
  | .cls | .ret | .jp _ | .call _ | .seImm _ _ | .sneImm _ _ | .seReg _ _ | .ldImm _ _ | .addImm _ _ | .ldReg _ _ => 0
  | .orReg _ _ | .andReg _ _ | .xorReg _ _ | .addReg _ _ | .subReg _ _ | .shr _ _ | .subnReg _ _ | .shl _ _ => 0
  | .sneReg _ _ | .ldI _ | .jpV0 _ | .rnd _ _ | .drw _ _ _ | .skp _ | .sknp _ | .ldVxDt _ | .ldVxK _ | .ldDtVx _ => 0
  | .ldStVx _ | .addI _ | .ldF _ | .ldVxMem _ => 0

/-- The instructions that write I (R20). -/
def Instr.writesIndex : Instr → Bool
  | .ldI _ | .addI _ | .ldF _ => true
  | .cls | .ret | .jp _ | .call _ | .seImm _ _ | .sneImm _ _ | .seReg _ _ | .ldImm _ _ | .addImm _ _ | .ldReg _ _ => false
  | .orReg _ _ | .andReg _ _ | .xorReg _ _ | .addReg _ _ | .subReg _ _ | .shr _ _ | .subnReg _ _ | .shl _ _ => false
  | .sneReg _ _ | .jpV0 _ | .rnd _ _ | .drw _ _ _ | .skp _ | .sknp _ | .ldVxDt _ | .ldVxK _ | .ldDtVx _ => false
  | .ldStVx _ | .ldB _ | .ldMemVx _ | .ldVxMem _ => false

/-- The instructions that write PC after the fetch: return, jump, call and the skips (R17). -/
def Instr.writesPc : Instr → Bool
  | .ret | .jp _ | .call _ | .seImm _ _ | .sneImm _ _ | .seReg _ _ | .sneReg _ _ | .skp _ | .sknp _ => true
  | .cls | .ldImm _ _ | .addImm _ _ | .ldReg _ _ | .orReg _ _ | .andReg _ _ | .xorReg _ _ | .addReg _ _ => false
  | .subReg _ _ | .shr _ _ | .subnReg _ _ | .shl _ _ | .ldI _ | .jpV0 _ | .rnd _ _ | .drw _ _ _ | .ldVxDt _ => false
  | .ldVxK _ | .ldDtVx _ | .ldStVx _ | .addI _ | .ldF _ | .ldB _ | .ldMemVx _ | .ldVxMem _ => false

end Sys2Proof

namespace Sys2Proof.Machine

/-! ## The invariant -/

/-- What holds in every reachable state (R18, R32) beyond the ranges that the types give: memory is in canonical form inside the
address space, PC is at most 0x1002, and every return address on the stack (a slot below SP) is at most 0x1000. -/
abbrev State.Inv (s : State) : Prop :=
  s.mem.wf ∧ s.pc.toNat ≤ 0x1002 ∧ ∀ k : Fin 16, k.val < s.sp.val → (s.stack.get k).toNat ≤ 0x1000

/-! ## How a step ends -/

/-- From s to t the inputs of the step are the same (R140: one sample a step). -/
abbrev State.sameInputs (s t : State) : Prop := t.keys = s.keys ∧ t.rand8 = s.rand8 ∧ t.samples = s.samples

/-- The instruction run on s completed in t: the core's state is c, the outcome is Completed, no error is recorded (R72). -/
def State.CompletesAs (s t : State) (c : CoreState) : Prop :=
  t.toCoreState = c ∧ t.outcome = some .completed ∧ t.errorLog = s.errorLog ∧ s.sameInputs t

/-- The instruction run on s left the core waiting in t: the core's state is c, the outcome is WaitingForKey (R118, R119). -/
def State.WaitsAs (s t : State) (c : CoreState) : Prop :=
  t.toCoreState = c ∧ t.outcome = some .waitingForKey ∧ t.errorLog = s.errorLog ∧ s.sameInputs t

/-- The instruction run on s raised e in t: nothing of the core's state is changed, the outcome is Error(e), and the error is
recorded (R73, R126, D16). -/
def State.RaisesAs (s t : State) (e : ErrorKind) : Prop :=
  t.toCoreState = s.toCoreState ∧ t.outcome = some (.error e) ∧ t.errorLog = e :: s.errorLog ∧ s.sameInputs t

/-! ## Fetching and encoding -/

/-- The word `M[PC] ++ M[PC+1]` (R38, R68). -/
def State.wordAtPc (s : State) : Word := s.mem.read s.pc.toNat ++ s.mem.read (s.pc.toNat + 1)

/-- A step in this state fetches the word w: no wait is pending and PC + 1 is inside memory (R67, R69). -/
abbrev State.Fetches (s : State) (w : Word) : Prop := s.wait = none ∧ s.pc.toNat + 1 ≤ 0xFFF ∧ s.wordAtPc = w

/-- Every word that a row's match and mask select decodes to the instruction that f reads from its fields. -/
def EncodedAs (mask pattern : Word) (f : Fields → Instr) : Prop :=
  ∀ w : Word, w &&& mask = pattern → decodeWord w = some (f (fields w))

/-! ## Unobservable slots, and the sprite as a set of pixels -/

/-- The same state but for what the stack slots at index SP and above hold (R22: their contents are unobservable). -/
def State.sameButStale (s t : State) : Prop :=
  t = { s with stack := t.stack } ∧ ∀ k : Fin 16, k.val < s.sp.val → t.stack.get k = s.stack.get k

/-- The sprite whose rows stand at origin column cx and row cy has a bit 1 on pixel (px, py): the pixel lies in the 8 columns
and the rows of the sprite, and bit 7 - c of its row, with c its column in the sprite, is 1 (R109, R111: "(b >> (7-c)) & 1",
written out in arithmetic and not through the draw loop's own `spriteBit`). A bit that falls outside the grid is on no pixel,
so clipping (R113) needs no clause. -/
def spriteOn (cx cy : Nat) (rows : List Byte) (py : Fin 32) (px : Fin 64) : Bool :=
  decide (cx ≤ px.val ∧ px.val < cx + 8 ∧ cy ≤ py.val) &&
    (rows[py.val - cy]?.elim false fun row => decide (row.toNat / 2 ^ (7 - (px.val - cx)) % 2 = 1))

/-! ## Runs -/

/-- No step and no load has returned an error (D16). -/
abbrev State.noError (s : State) : Prop := s.errorLog = []

/-- A self-loop: no wait is pending and PC holds the word `1nnn` with nnn = PC (R152, D25). -/
abbrev State.selfLoop (s : State) : Prop :=
  s.wait = none ∧ s.pc.toNat ≤ 0xFFE ∧ s.wordAtPc.toNat = 0x1000 + s.pc.toNat

/-- The end of a run (R152, D25): the last step returned an error, or a self-loop is reached. -/
def State.ended (s : State) : Prop := (∃ e, s.outcome = some (.error e)) ∨ s.selfLoop

/-- A host whose driving loop halts at the first error (R125: whether to halt is the host's decision, outside the core). -/
def stepOrHalt (s : State) : Result :=
  match step s with
  | .next t =>
    match t.outcome with
    | some (.error e) => .fault (.halted e)
    | _ => .next t
  | r => r

end Sys2Proof.Machine
end

