-- ==== Sys2Proof/Certificates/Slice0/Obligations.lean ====
section
/-! DEFINITION. The statements for the provers, each formalising what a rule of the spec says an instruction or the machine
does. Where a rule rests on a decision of the spec (D1 to D29) the docstring names it. `exec i s` is the execute phase: s is the
post-fetch state, so `s.pc` is the address after the instruction. -/

open Sys2Proof Sys2Proof.Machine

/-! ## Encoding (30_encoding.md) -/

/-- Sanity: one word of each family, written out from the formats of R56, decodes to the instruction it stands for. -/
def Obligations.DecodesSampleWords : Prop :=
  decodeWord 0x00E0 = some .cls ∧ decodeWord 0x2300 = some (.call 0x300) ∧ decodeWord 0x4310 = some (.sneImm 3 0x10) ∧
  decodeWord 0x8F14 = some (.addReg 0xF 1) ∧ decodeWord 0xA2F0 = some (.ldI 0x2F0) ∧ decodeWord 0xD015 = some (.drw 0 1 5) ∧
  decodeWord 0xE2A1 = some (.sknp 2) ∧ decodeWord 0xF50A = some (.ldVxK 5) ∧ decodeWord 0xF365 = some (.ldVxMem 3)

/-- The opcode map of R59: every word a row's match and mask select decodes to that row's instruction, with the operands its
fields hold. -/
def Obligations.OpcodeMapIsFollowed : Prop :=
  EncodedAs 0xFFFF 0x00E0 (fun _ => .cls) ∧ EncodedAs 0xFFFF 0x00EE (fun _ => .ret) ∧
  EncodedAs 0xF000 0x1000 (fun f => .jp f.nnn) ∧ EncodedAs 0xF000 0x2000 (fun f => .call f.nnn) ∧
  EncodedAs 0xF000 0x3000 (fun f => .seImm f.x f.nn) ∧ EncodedAs 0xF000 0x4000 (fun f => .sneImm f.x f.nn) ∧
  EncodedAs 0xF00F 0x5000 (fun f => .seReg f.x f.y) ∧ EncodedAs 0xF000 0x6000 (fun f => .ldImm f.x f.nn) ∧
  EncodedAs 0xF000 0x7000 (fun f => .addImm f.x f.nn) ∧ EncodedAs 0xF00F 0x8000 (fun f => .ldReg f.x f.y) ∧
  EncodedAs 0xF00F 0x8001 (fun f => .orReg f.x f.y) ∧ EncodedAs 0xF00F 0x8002 (fun f => .andReg f.x f.y) ∧
  EncodedAs 0xF00F 0x8003 (fun f => .xorReg f.x f.y) ∧ EncodedAs 0xF00F 0x8004 (fun f => .addReg f.x f.y) ∧
  EncodedAs 0xF00F 0x8005 (fun f => .subReg f.x f.y) ∧ EncodedAs 0xF00F 0x8006 (fun f => .shr f.x f.y) ∧
  EncodedAs 0xF00F 0x8007 (fun f => .subnReg f.x f.y) ∧ EncodedAs 0xF00F 0x800E (fun f => .shl f.x f.y) ∧
  EncodedAs 0xF00F 0x9000 (fun f => .sneReg f.x f.y) ∧ EncodedAs 0xF000 0xA000 (fun f => .ldI f.nnn) ∧
  EncodedAs 0xF000 0xB000 (fun f => .jpV0 f.nnn) ∧ EncodedAs 0xF000 0xC000 (fun f => .rnd f.x f.nn) ∧
  EncodedAs 0xF000 0xD000 (fun f => .drw f.x f.y f.n) ∧ EncodedAs 0xF0FF 0xE09E (fun f => .skp f.x) ∧
  EncodedAs 0xF0FF 0xE0A1 (fun f => .sknp f.x) ∧ EncodedAs 0xF0FF 0xF007 (fun f => .ldVxDt f.x) ∧
  EncodedAs 0xF0FF 0xF00A (fun f => .ldVxK f.x) ∧ EncodedAs 0xF0FF 0xF015 (fun f => .ldDtVx f.x) ∧
  EncodedAs 0xF0FF 0xF018 (fun f => .ldStVx f.x) ∧ EncodedAs 0xF0FF 0xF01E (fun f => .addI f.x) ∧
  EncodedAs 0xF0FF 0xF029 (fun f => .ldF f.x) ∧ EncodedAs 0xF0FF 0xF033 (fun f => .ldB f.x) ∧
  EncodedAs 0xF0FF 0xF055 (fun f => .ldMemVx f.x) ∧ EncodedAs 0xF0FF 0xF065 (fun f => .ldVxMem f.x)

/-- Decode and encode agree: the bytes of any instruction's word, whatever follows them, decode to that instruction, with every
operand at every value, and leave what follows. -/
def Obligations.DecodeOfEncodeIsTheInstruction : Prop :=
  ∀ (i : Instr) (rest : List Byte), decode (bytesOfWord (encode i) ++ rest) = .instr i rest

/-- No two words decode to the same term of `Instr`: encoding what a word decodes to gives the word back. It holds because the
terms of `8xy6` and `8xyE` keep the field y that the operation ignores (the model's choice, log 11; R63: 0x8126 and 0x81F6 select
the same operation) and because every fixed digit must match (decision D7, log 14). -/
def Obligations.EncodeOfDecodeIsTheWord : Prop :=
  ∀ (w : Word) (i : Instr), decodeWord w = some i → encode i = w

/-- The words that are not implemented are exactly the seven sets of R61 (exact match of the fixed digits: D7); of them only
those of class 0xB decode, to the row that R84 says raises UnimplementedOpcode. -/
def Obligations.UnimplementedWordsAreTheSevenSets : Prop :=
  ∀ w : Word, (wellFormedWord w = true ↔ ∃ i, decodeWord w = some i ∧ i.implemented = true) ∧
    (wellFormedWord w = false ↔ decodeWord w = none ∨ ∃ nnn, decodeWord w = some (.jpV0 nnn))

/-! ## The step cycle (40_step_cycle.md) -/

/-- A step runs the decoded instruction: when no wait is pending and the two bytes at PC decode to i, a step samples its inputs,
advances PC by 2 and is exec of i (R67, R68, R72). `step` takes the free inputs of its sample number. -/
def Obligations.StepRunsTheDecodedInstruction : Prop :=
  ∀ (s : State) (i : Instr), s.wait = none → s.pc.toNat + 1 ≤ 0xFFF →
    decode (s.mem.readBytes s.pc.toNat 2) = .instr i [] →
    (∀ keys rand8, stepWith keys rand8 s = exec i ((s.sample keys rand8).withPc (s.pc + 2))) ∧
    step s = stepWith (Config.keyInput s.samples) (Config.randomByte s.samples) s

/-- Fetch (R68) reads two consecutive bytes at PC, combines them big-endian into W, and advances PC by 2, with no other effect;
it happens before decode on every step that finds no wait pending, whatever W is. That it looks at no alignment, PC being any address, odd or even, is
decision D11 (R40, log 17). -/
def Obligations.FetchReadsTheWordAtPc : Prop :=
  ∀ s : State, s.pc.toNat + 1 ≤ 0xFFF →
    (∃ t, s.fetch = some ([s.mem.read s.pc.toNat, s.mem.read (s.pc.toNat + 1)], t) ∧ t = { s with pc := s.pc + 2 } ∧
      t.pc.toNat = s.pc.toNat + 2) ∧
    (∀ keys rand8 i, s.wait = none → decodeWord (s.mem.read s.pc.toNat ++ s.mem.read (s.pc.toNat + 1)) = some i →
      stepWith keys rand8 s = exec i { s.sample keys rand8 with pc := s.pc + 2 }) ∧
    (∀ keys rand8, s.wait = none → decodeWord (s.mem.read s.pc.toNat ++ s.mem.read (s.pc.toNat + 1)) = none →
      stepWith keys rand8 s = .next (State.raise { s.sample keys rand8 with pc := s.pc + 2 } .unimplementedOpcode))

/-- A fetch with PC + 1 outside memory (R69) returns Error(MemoryBoundsError) with the core's state unchanged, and the next step
fails the same way. That a fetch error commits nothing is decision D6 (log 13). -/
def Obligations.FetchOutsideMemoryChangesNothing : Prop :=
  ∀ (s : State) (keys : Keys) (rand8 : Byte), s.wait = none → 0xFFF < s.pc.toNat + 1 →
    ∃ t, stepWith keys rand8 s = .next t ∧ (s.sample keys rand8).RaisesAs t .memoryBounds ∧
      ∀ keys' rand8', ∃ u, stepWith keys' rand8' t = .next u ∧ (t.sample keys' rand8').RaisesAs u .memoryBounds

/-- Executing any word of the seven sets of R61, every `Bnnn` among them, returns Error(UnimplementedOpcode) with PC = old PC + 2
and nothing else of the core's state changed (R74). That the sets hold every word whose fixed digits do not match exactly
(0x01E0, 0x5121, 0x9121) is decision D7 (log 14). -/
def Obligations.UnimplementedWordCommitsOnlyTheFetch : Prop :=
  ∀ (s : State) (w : Word) (keys : Keys) (rand8 : Byte), s.Fetches w → wellFormedWord w = false →
    ∃ t, stepWith keys rand8 s = .next t ∧ t.outcome = some (.error .unimplementedOpcode) ∧
      t.toCoreState = { s.toCoreState with pc := s.pc + 2 } ∧ t.pc.toNat = s.pc.toNat + 2

/-- The core never stops: every step, from every state, answers a next state with an outcome, and no step reports
ProgramTooLarge (R12, R67, R124, R125, R130). The record of errors the model keeps outside the core's state (D16, log 2) grows
by exactly the error a step returns. -/
def Obligations.EveryStepReturnsAnOutcome : Prop :=
  ∀ s : State, ∃ t o, step s = .next t ∧ t.outcome = some o ∧ o ≠ .error .programTooLarge ∧
    (∀ e, o = .error e → t.errorLog = e :: s.errorLog) ∧ ((∀ e, o ≠ .error e) → t.errorLog = s.errorLog)

/-- Errors are precise (R126, R73; the commit on errors other than UnimplementedOpcode is decision D6): a step that returns an
error leaves the core's state as it was but for PC, which is unchanged when the fetch failed and advanced by 2 otherwise. -/
def Obligations.ErrorsCommitAtMostTheFetch : Prop :=
  ∀ (s t : State) (keys : Keys) (rand8 : Byte) (e : ErrorKind), stepWith keys rand8 s = .next t → t.outcome = some (.error e) →
    (0xFFF < s.pc.toNat + 1 ∧ e = .memoryBounds ∧ t.toCoreState = s.toCoreState) ∨
    (s.pc.toNat + 1 ≤ 0xFFF ∧ t.toCoreState = { s.toCoreState with pc := s.pc + 2 })

/-- Each error kind is raised on exactly the conditions of R124, by every step from every state and by every load. A step with a
wait pending raises none. A step with none pending raises MemoryBoundsError when PC + 1 is outside memory, and nothing else then;
when it fetches the word W at PC it raises each kind on that kind's condition on W. ProgramTooLarge is raised by no step, and by
a load of more than 3584 bytes exactly, which raises nothing else. Decisions: that an unimplemented word is one that matches no
row in every fixed digit, `00EE` among the rows, is D7 (log 14); KeyIndexError is D12; the whole-range checks are D14; the wait
latch is D13. -/
def Obligations.ErrorsAreRaisedExactlyWhen : Prop :=
  (∀ (s t : State) (keys : Keys) (rand8 : Byte), stepWith keys rand8 s = .next t →
    let w := s.wordAtPc
    let fetches := s.wait = none ∧ s.pc.toNat + 1 ≤ 0xFFF
    (t.outcome = some (.error .unimplementedOpcode) ↔ fetches ∧ wellFormedWord w = false) ∧
    (t.outcome = some (.error .stackOverflow) ↔ fetches ∧ w &&& 0xF000 = 0x2000 ∧ s.sp.val = 16) ∧
    (t.outcome = some (.error .stackUnderflow) ↔ fetches ∧ w = 0x00EE ∧ s.sp.val = 0) ∧
    (t.outcome = some (.error .keyIndex) ↔
      fetches ∧ (w &&& 0xF0FF = 0xE09E ∨ w &&& 0xF0FF = 0xE0A1) ∧ 0xF < (s.reg (fields w).x).toNat) ∧
    (t.outcome = some (.error .memoryBounds) ↔
      (s.wait = none ∧ 0xFFF < s.pc.toNat + 1) ∨
      (fetches ∧ w &&& 0xF0FF = 0xF033 ∧ 0xFFF < s.i.toNat + 2) ∨
      (fetches ∧ (w &&& 0xF0FF = 0xF055 ∨ w &&& 0xF0FF = 0xF065) ∧ 0xFFF < s.i.toNat + (fields w).x.val) ∨
      (fetches ∧ w &&& 0xF000 = 0xD000 ∧ 1 ≤ (fields w).n.val ∧ 0xFFF < s.i.toNat + (fields w).n.val - 1)) ∧
    t.outcome ≠ some (.error .programTooLarge)) ∧
  (∀ (s : State) (bytes : List Byte) (e : ErrorKind),
    (s.load bytes).1 = .error e ↔ e = .programTooLarge ∧ 3584 < bytes.length)

/-! ## Whole-machine rules -/

/-- The invariant of R18 and R32 holds after construction. -/
def Obligations.ResetMeetsTheInvariant : Prop := State.reset.Inv

/-- The invariant of R18 and R32 is kept by every step of the machine, from every state that meets it: memory stays in canonical
form, PC never exceeds 0x1002, and every return address on the stack is at most 0x1000. -/
def Obligations.StepKeepsTheInvariant : Prop :=
  ∀ s t : State, s.Inv → step s = .next t → t.Inv

/-- Every serialised order of host operations (steps with any inputs, ticks, loads, constructions) keeps the invariant (R32,
R48, R143; decision D19). -/
def Obligations.HostOperationsKeepTheInvariant : Prop :=
  ∀ (ops : List HostOp) (s : State), s.Inv → (s.runOps ops).Inv

/-- The random byte is read only by `Cxkk` (R75, R141; decision D20): two steps from one state that differ in the byte supplied
agree in the core's state and the outcome, unless the step fetches a word of class 0xC. -/
def Obligations.RandomByteIsReadOnlyByRnd : Prop :=
  ∀ (s : State) (keys : Keys) (r r' : Byte), ¬ (s.wait = none ∧ s.wordAtPc &&& 0xF000 = 0xC000) →
    ∃ t t', stepWith keys r s = .next t ∧ stepWith keys r' s = .next t' ∧
      t.toCoreState = t'.toCoreState ∧ t.outcome = t'.outcome

/-- The keys are read only by `Ex9E`, `ExA1`, `Fx0A` and the waiting step (R75): two steps from one state that differ in the key
vector supplied agree in the core's state and the outcome, unless a wait is pending or the step fetches one of the three. -/
def Obligations.KeysAreReadOnlyByKeyInstructions : Prop :=
  ∀ (s : State) (keys keys' : Keys) (r : Byte), s.wait = none →
    s.wordAtPc &&& 0xF0FF ≠ 0xE09E → s.wordAtPc &&& 0xF0FF ≠ 0xE0A1 → s.wordAtPc &&& 0xF0FF ≠ 0xF00A →
    ∃ t t', stepWith keys r s = .next t ∧ stepWith keys' r s = .next t' ∧
      t.toCoreState = t'.toCoreState ∧ t.outcome = t'.outcome

/-- What the stack slots at SP and above hold cannot be observed (R22; their reset value is decision D1): two states that differ
in nothing else answer next states that differ in nothing else, for the same inputs. -/
def Obligations.StaleStackSlotsAreUnobservable : Prop :=
  ∀ (s s' : State) (keys : Keys) (rand8 : Byte), s.sameButStale s' →
    ∃ t t', stepWith keys rand8 s = .next t ∧ stepWith keys rand8 s' = .next t' ∧ t.sameButStale t'

/-- No instruction reads the sound timer; of the instructions only `Fx07` reads the delay timer (R23) and only `Dxyn` the
framebuffer (R25). What the tick and the host's views read is not spoken of. Changing one of them before an instruction that neither reads nor writes it changes nothing after it but that element itself. -/
def Obligations.TimersAndFramebufferAreReadOnlyWhereNamed : Prop :=
  ∀ (i : Instr) (s t : State) (d b : Byte) (fb : Framebuffer), exec i s = .next t →
    ((∀ x, i ≠ .ldStVx x) → exec i (s.withSt b) = .next (t.withSt b)) ∧
    ((∀ x, i ≠ .ldDtVx x) → (∀ x, i ≠ .ldVxDt x) → exec i (s.withDt d) = .next (t.withDt d)) ∧
    (i ≠ .cls → (∀ x y n, i ≠ .drw x y n) → exec i (s.withFb fb) = .next (t.withFb fb))

/-- A self-loop is a fixed point (R152; the end of a run is decision D25): a step there returns Completed and leaves the whole
core state unchanged. -/
def Obligations.SelfLoopIsAFixedPoint : Prop :=
  ∀ (s : State) (keys : Keys) (rand8 : Byte), s.selfLoop →
    ∃ t, stepWith keys rand8 s = .next t ∧ (s.sample keys rand8).CompletesAs t s.toCoreState

/-! ## Frames: what every instruction leaves unchanged (R76; decision D9) -/

/-- Every register is unchanged except the instruction's destination (for `Fx65` the block V0..Vx) and, for the six
instructions of R15 that write it as a flag, VF. -/
def Obligations.RegistersOutsideTheDestinationAreUnchanged : Prop :=
  ∀ (i : Instr) (s t : State) (r : RegIdx), exec i s = .next t →
    i.hasDestination r = false → (i.writesFlag = true → r ≠ flagReg) → t.reg r = s.reg r

/-- Every byte of memory reads as before except the bytes the instruction stores, which are storeLength bytes from the effective
address I on (R41, R46): 3 for `Fx33`, x + 1 for `Fx55`, none for every other instruction. -/
def Obligations.MemoryOutsideTheStoredBytesIsUnchanged : Prop :=
  ∀ (i : Instr) (s t : State) (a : Nat), exec i s = .next t →
    (a < s.indexed 0 ∨ s.indexed 0 + i.storeLength ≤ a) → t.mem.read a = s.mem.read a

/-- I is written only by `Annn`, `Fx1E` and `Fx29` (R20; that `Fx55`, `Fx65`, `Fx33` and `Dxyn` leave it is decision D15), DT only
by `Fx15` and ST only by `Fx18` (R23, R75, R123), the framebuffer only by `00E0` and `Dxyn` (R25). -/
def Obligations.IndexTimersAndFramebufferFrame : Prop :=
  ∀ (i : Instr) (s t : State), exec i s = .next t →
    (i.writesIndex = false → t.i = s.i) ∧ ((∀ x, i ≠ .ldDtVx x) → t.dt = s.dt) ∧ ((∀ x, i ≠ .ldStVx x) → t.st = s.st) ∧
    (i ≠ .cls → (∀ x y n, i ≠ .drw x y n) → t.fb = s.fb)

/-- SP and the call stack are written only by `2nnn` and `00EE` (R21); a return clears no slot (R22). -/
def Obligations.StackIsWrittenOnlyByCallAndReturn : Prop :=
  ∀ (i : Instr) (s t : State), exec i s = .next t →
    ((∀ nnn, i ≠ .call nnn) → t.stack = s.stack) ∧ ((∀ nnn, i ≠ .call nnn) → i ≠ .ret → t.sp = s.sp)

/-- Of the instructions, after the fetch, only return, jump, call and the skips write PC (R17), so `Fx0A` leaves its post-fetch
value; only `Fx0A` writes the wait latch (R24); none writes the inputs of the step (R140). What `Fx0A` does to PC and the latch is
decision D13 (log 20), the one sample a step is decision D23. -/
def Obligations.PcWaitAndInputsFrame : Prop :=
  ∀ (i : Instr) (s t : State), exec i s = .next t →
    (i.writesPc = false → t.pc = s.pc) ∧ ((∀ x, i ≠ .ldVxK x) → t.wait = s.wait) ∧ s.sameInputs t

/-! ## Control transfer (41_control_flow.md) -/

/-- R77: `00EE` pops the return address into PC, the slot keeping its value; with SP = 0 it raises StackUnderflow and changes
nothing after the fetch (decision D6, log 13). The first clause says that the word 0x00EE and no other decodes to it, which is the
exact match of decision D7 (R60, log 14). -/
def Obligations.RetPopsTheReturnAddress : Prop :=
  (∀ w, decodeWord w = some .ret ↔ w = 0x00EE) ∧
  (∀ s : State, s.sp.val = 0 → ∃ t, exec .ret s = .next t ∧ s.RaisesAs t .stackUnderflow) ∧
  (∀ (s : State) (k : Fin 16), s.sp = k.succ → ∃ t, exec .ret s = .next t ∧
    s.CompletesAs t { s.toCoreState with sp := k.castSucc, pc := s.stack.get k })

/-- R78: `1nnn` sets PC to nnn, odd or low targets included (that an odd target is accepted is decision D11). -/
def Obligations.JpSetsPc : Prop :=
  ∀ (nnn : Addr12) (s : State), ∃ t, exec (.jp nnn) s = .next t ∧
    s.CompletesAs t { s.toCoreState with pc := t.pc } ∧ t.pc.toNat = nnn.toNat

/-- R79: `2nnn` pushes the post-fetch PC and jumps; with SP = 16 it raises StackOverflow and changes nothing after the
fetch (decision D6, log 13). -/
def Obligations.CallPushesThePostFetchPc : Prop :=
  EncodedAs 0xF000 0x2000 (fun f => .call f.nnn) ∧
  (∀ (nnn : Addr12) (s : State), s.sp.val = 16 → ∃ t, exec (.call nnn) s = .next t ∧ s.RaisesAs t .stackOverflow) ∧
  (∀ (nnn : Addr12) (s : State) (k : Fin 16), s.sp = k.castSucc → ∃ t, exec (.call nnn) s = .next t ∧
    s.CompletesAs t { s.toCoreState with stack := t.stack, sp := k.succ, pc := t.pc } ∧ t.pc.toNat = nnn.toNat ∧
    ∀ j, t.stack.get j = if j = k then s.pc else s.stack.get j)

/-- A return after a call goes to the instruction following the call, whatever the subroutine did to anything but SP and the
stack (R77, R79; test vector S6). -/
def Obligations.ReturnAfterCallGoesBack : Prop :=
  ∀ (nnn : Addr12) (s t u : State), exec (.call nnn) s = .next t → t.outcome = some .completed →
    u.sp = t.sp → u.stack = t.stack → ∃ z, exec .ret u = .next z ∧
      u.CompletesAs z { u.toCoreState with sp := s.sp, pc := s.pc }

/-- R80 and R81: `3xkk` adds 2 to the post-fetch PC, mod 2^16, exactly when Vx = kk, `4xkk` exactly when Vx differs from kk, and
neither does anything else. -/
def Obligations.ImmediateComparisonsSkip : Prop :=
  EncodedAs 0xF000 0x3000 (fun f => .seImm f.x f.nn) ∧ EncodedAs 0xF000 0x4000 (fun f => .sneImm f.x f.nn) ∧
  ∀ (x : RegIdx) (kk : Byte) (s : State),
    (∃ t, exec (.seImm x kk) s = .next t ∧ s.CompletesAs t { s.toCoreState with pc := t.pc } ∧
      t.pc.toNat = if s.reg x = kk then (s.pc.toNat + 2) % 2 ^ 16 else s.pc.toNat) ∧
    (∃ t, exec (.sneImm x kk) s = .next t ∧ s.CompletesAs t { s.toCoreState with pc := t.pc } ∧
      t.pc.toNat = if s.reg x = kk then s.pc.toNat else (s.pc.toNat + 2) % 2 ^ 16)

/-- R82 and R83: `5xy0` skips exactly when Vx = Vy, `9xy0` exactly when they differ, and neither does anything else (that n must
be 0 is decision D7). -/
def Obligations.RegisterComparisonsSkip : Prop :=
  ∀ (x y : RegIdx) (s : State),
    (∃ t, exec (.seReg x y) s = .next t ∧ s.CompletesAs t { s.toCoreState with pc := t.pc } ∧
      t.pc.toNat = if s.reg x = s.reg y then (s.pc.toNat + 2) % 2 ^ 16 else s.pc.toNat) ∧
    (∃ t, exec (.sneReg x y) s = .next t ∧ s.CompletesAs t { s.toCoreState with pc := t.pc } ∧
      t.pc.toNat = if s.reg x = s.reg y then s.pc.toNat else (s.pc.toNat + 2) % 2 ^ 16)

/-- R84: every `Bnnn` raises UnimplementedOpcode, its whole effect; the step commits only the fetch. -/
def Obligations.JpV0IsUnimplemented : Prop :=
  EncodedAs 0xF000 0xB000 (fun f => .jpV0 f.nnn) ∧
  (∀ (nnn : Addr12) (s : State), ∃ t, exec (.jpV0 nnn) s = .next t ∧ s.RaisesAs t .unimplementedOpcode) ∧
  (∀ (s : State) (w : Word) (keys : Keys) (rand8 : Byte), s.Fetches w → w &&& 0xF000 = 0xB000 →
    ∃ t, stepWith keys rand8 s = .next t ∧ t.outcome = some (.error .unimplementedOpcode) ∧
      t.toCoreState = { s.toCoreState with pc := s.pc + 2 })

/-! ## Register loads and the ALU (42_alu.md) -/

/-- R88: `6xkk` sets Vx to kk exactly and nothing else; PC advances by exactly 2 from its pre-fetch value. -/
def Obligations.LdImmSetsTheRegister : Prop :=
  EncodedAs 0xF000 0x6000 (fun f => .ldImm f.x f.nn) ∧
  (∀ (x : RegIdx) (kk : Byte) (s : State), ∃ t, exec (.ldImm x kk) s = .next t ∧
    s.CompletesAs t { s.toCoreState with v := t.v } ∧ ∀ r, t.reg r = if r = x then kk else s.reg r) ∧
  (∀ (s t : State) (w : Word) (keys : Keys) (rand8 : Byte), s.Fetches w → w &&& 0xF000 = 0x6000 →
    stepWith keys rand8 s = .next t → t.pc.toNat = s.pc.toNat + 2)

/-- R89: `7xkk` sets Vx to (Vx + kk) mod 256 and nothing else; VF is unchanged unless it is the destination. -/
def Obligations.AddImmAddsWithoutFlag : Prop :=
  EncodedAs 0xF000 0x7000 (fun f => .addImm f.x f.nn) ∧
  ∀ (x : RegIdx) (kk : Byte) (s : State), ∃ t, exec (.addImm x kk) s = .next t ∧
    s.CompletesAs t { s.toCoreState with v := t.v } ∧
    (t.reg x).toNat = ((s.reg x).toNat + kk.toNat) % 256 ∧ ∀ r, r ≠ x → t.reg r = s.reg r

/-- R90: `8xy0` copies Vy to Vx and does nothing else. -/
def Obligations.LdRegCopiesTheRegister : Prop :=
  EncodedAs 0xF00F 0x8000 (fun f => .ldReg f.x f.y) ∧
  ∀ (x y : RegIdx) (s : State), ∃ t, exec (.ldReg x y) s = .next t ∧
    s.CompletesAs t { s.toCoreState with v := t.v } ∧ ∀ r, t.reg r = if r = x then s.reg y else s.reg r

/-- R91 to R93: `8xy1`, `8xy2` and `8xy3` set every bit of Vx to the OR, AND and XOR of the bits of Vx and Vy, and change nothing
else; VF is not reset (decision D9). -/
def Obligations.LogicOperationsAreBitwise : Prop :=
  ∀ (x y : RegIdx) (s : State),
    (∃ t, exec (.orReg x y) s = .next t ∧ s.CompletesAs t { s.toCoreState with v := t.v } ∧
      (∀ k, (t.reg x).getLsbD k = ((s.reg x).getLsbD k || (s.reg y).getLsbD k)) ∧ ∀ r, r ≠ x → t.reg r = s.reg r) ∧
    (∃ t, exec (.andReg x y) s = .next t ∧ s.CompletesAs t { s.toCoreState with v := t.v } ∧
      (∀ k, (t.reg x).getLsbD k = ((s.reg x).getLsbD k && (s.reg y).getLsbD k)) ∧ ∀ r, r ≠ x → t.reg r = s.reg r) ∧
    (∃ t, exec (.xorReg x y) s = .next t ∧ s.CompletesAs t { s.toCoreState with v := t.v } ∧
      (∀ k, (t.reg x).getLsbD k = ((s.reg x).getLsbD k ^^ (s.reg y).getLsbD k)) ∧ ∀ r, r ≠ x → t.reg r = s.reg r)

/-- R94: `8xy4` sets VF to 1 exactly when Vx + Vy exceeds 255, else 0, and Vx, unless it is VF, to the sum mod 256; nothing else
changes. That the flag is the write that remains when x = 0xF is decision D8. -/
def Obligations.AddRegSetsTheCarry : Prop :=
  ∀ (x y : RegIdx) (s : State), ∃ t, exec (.addReg x y) s = .next t ∧
    s.CompletesAs t { s.toCoreState with v := t.v } ∧
    t.reg flagReg = (if (s.reg x).toNat + (s.reg y).toNat > 255 then 1 else 0) ∧
    (x ≠ flagReg → (t.reg x).toNat = ((s.reg x).toNat + (s.reg y).toNat) % 256) ∧
    ∀ r, r ≠ x → r ≠ flagReg → t.reg r = s.reg r

/-- R95 and R97: `8xy5` sets VF to 1 exactly when Vx > Vy, `8xy7` exactly when Vy > Vx, strictly, so equality gives 0; Vx, unless
it is VF, gets the difference mod 256. That the flag is the write that remains when x = 0xF is decision D8. -/
def Obligations.SubtractionsCompareStrictly : Prop :=
  ∀ (x y : RegIdx) (s : State),
    (∃ t, exec (.subReg x y) s = .next t ∧ s.CompletesAs t { s.toCoreState with v := t.v } ∧
      t.reg flagReg = (if (s.reg x).toNat > (s.reg y).toNat then 1 else 0) ∧
      (x ≠ flagReg → ((t.reg x).toNat : Int) = ((s.reg x).toNat - (s.reg y).toNat : Int) % 256) ∧
      ∀ r, r ≠ x → r ≠ flagReg → t.reg r = s.reg r) ∧
    (∃ t, exec (.subnReg x y) s = .next t ∧ s.CompletesAs t { s.toCoreState with v := t.v } ∧
      t.reg flagReg = (if (s.reg y).toNat > (s.reg x).toNat then 1 else 0) ∧
      (x ≠ flagReg → ((t.reg x).toNat : Int) = ((s.reg y).toNat - (s.reg x).toNat : Int) % 256) ∧
      ∀ r, r ≠ x → r ≠ flagReg → t.reg r = s.reg r)

/-- R96 and R98: `8xy6` halves Vx and sets VF to its old bit 0, `8xyE` doubles Vx mod 256 and sets VF to its old bit 7, whatever
the ignored field y is (R63). That the flag is the write that remains when x = 0xF is decision D8. -/
def Obligations.ShiftsMoveOneBitIntoTheFlag : Prop :=
  ∀ (x y : RegIdx) (s : State),
    (∃ t, exec (.shr x y) s = .next t ∧ s.CompletesAs t { s.toCoreState with v := t.v } ∧
      (t.reg flagReg).toNat = (s.reg x).toNat % 2 ∧ (x ≠ flagReg → (t.reg x).toNat = (s.reg x).toNat / 2) ∧
      ∀ r, r ≠ x → r ≠ flagReg → t.reg r = s.reg r) ∧
    (∃ t, exec (.shl x y) s = .next t ∧ s.CompletesAs t { s.toCoreState with v := t.v } ∧
      (t.reg flagReg).toNat = (s.reg x).toNat / 128 ∧ (x ≠ flagReg → (t.reg x).toNat = (s.reg x).toNat * 2 % 256) ∧
      ∀ r, r ≠ x → r ≠ flagReg → t.reg r = s.reg r)

/-- R100: `Cxkk` sets Vx to the byte the provider supplied for this step, masked by kk, whatever that byte is (decision D20). -/
def Obligations.RndMasksTheSuppliedByte : Prop :=
  ∀ (x : RegIdx) (kk : Byte) (s : State), ∃ t, exec (.rnd x kk) s = .next t ∧
    s.CompletesAs t { s.toCoreState with v := t.v } ∧
    (∀ k, (t.reg x).getLsbD k = (s.rand8.getLsbD k && kk.getLsbD k)) ∧ ∀ r, r ≠ x → t.reg r = s.reg r

/-! ## Index register and memory transfers (43_index_memory.md) -/

/-- R102: `Annn` sets I to nnn, at most 0xFFF, and does nothing else. -/
def Obligations.LdISetsTheIndex : Prop :=
  EncodedAs 0xF000 0xA000 (fun f => .ldI f.nnn) ∧
  ∀ (nnn : Addr12) (s : State), ∃ t, exec (.ldI nnn) s = .next t ∧
    s.CompletesAs t { s.toCoreState with i := t.i } ∧ t.i.toNat = nnn.toNat ∧ t.i.toNat ≤ 0xFFF

/-- R103 and R104: `Fx1E` adds Vx to I mod 2^16 with no flag (the wrap is decision D28); `Fx29` sets I to Vx * 5 unmasked
(decision D27). Neither does anything else. -/
def Obligations.IndexArithmetic : Prop :=
  ∀ (x : RegIdx) (s : State),
    (∃ t, exec (.addI x) s = .next t ∧ s.CompletesAs t { s.toCoreState with i := t.i } ∧
      t.i.toNat = (s.i.toNat + (s.reg x).toNat) % 2 ^ 16) ∧
    (∃ t, exec (.ldF x) s = .next t ∧ s.CompletesAs t { s.toCoreState with i := t.i } ∧
      t.i.toNat = (s.reg x).toNat * 5)

/-- MemRead (R36) answers the n bytes in address order when all of them lie in memory, and MemoryBoundsError (none) otherwise.
That the address is an unbounded integer and does not wrap is decision D14 (R46, log 19). -/
def Obligations.MemReadIsBoundsChecked : Prop :=
  ∀ (s : State) (a n : Nat), 1 ≤ n →
    (a + n - 1 > 0xFFF → s.memRead a n = none) ∧
    (a + n - 1 ≤ 0xFFF → ∃ bytes, s.memRead a n = some bytes ∧ bytes.length = n ∧
      ∀ k, k < n → bytes[k]? = some (s.mem.read (a + k)))

/-- R105: `Fx33` stores the three decimal digits of Vx at I, I+1, I+2 and changes no other byte and no register; when I + 2 is
outside memory it raises MemoryBoundsError and writes nothing (decision D14). -/
def Obligations.LdBStoresDecimalDigits : Prop :=
  ∀ (x : RegIdx) (s : State),
    (0xFFF < s.i.toNat + 2 → ∃ t, exec (.ldB x) s = .next t ∧ s.RaisesAs t .memoryBounds) ∧
    (s.i.toNat + 2 ≤ 0xFFF → ∃ t, exec (.ldB x) s = .next t ∧ s.CompletesAs t { s.toCoreState with mem := t.mem } ∧
      (t.mem.read s.i.toNat).toNat = (s.reg x).toNat / 100 ∧
      (t.mem.read (s.i.toNat + 1)).toNat = (s.reg x).toNat / 10 % 10 ∧
      (t.mem.read (s.i.toNat + 2)).toNat = (s.reg x).toNat % 10 ∧
      ∀ a, a < s.i.toNat ∨ s.i.toNat + 3 ≤ a → t.mem.read a = s.mem.read a)

/-- R106: `Fx55` stores V0..Vx at I..I+x and changes no other byte and no register, I included; when I + x is outside memory it
raises MemoryBoundsError and writes nothing (decisions D14, D15). -/
def Obligations.LdMemVxStoresTheRegisterBlock : Prop :=
  ∀ (x : RegIdx) (s : State),
    (0xFFF < s.i.toNat + x.val → ∃ t, exec (.ldMemVx x) s = .next t ∧ s.RaisesAs t .memoryBounds) ∧
    (s.i.toNat + x.val ≤ 0xFFF → ∃ t, exec (.ldMemVx x) s = .next t ∧
      s.CompletesAs t { s.toCoreState with mem := t.mem } ∧
      (∀ r : RegIdx, r ≤ x → t.mem.read (s.i.toNat + r.val) = s.reg r) ∧
      ∀ a, a < s.i.toNat ∨ s.i.toNat + x.val < a → t.mem.read a = s.mem.read a)

/-- R107: `Fx65` loads V0..Vx from I..I+x and changes no other register and no byte; when I + x is outside memory it raises
MemoryBoundsError and writes no register (decisions D14, D15). -/
def Obligations.LdVxMemLoadsTheRegisterBlock : Prop :=
  ∀ (x : RegIdx) (s : State),
    (0xFFF < s.i.toNat + x.val → ∃ t, exec (.ldVxMem x) s = .next t ∧ s.RaisesAs t .memoryBounds) ∧
    (s.i.toNat + x.val ≤ 0xFFF → ∃ t, exec (.ldVxMem x) s = .next t ∧
      s.CompletesAs t { s.toCoreState with v := t.v } ∧
      ∀ r : RegIdx, t.reg r = if r ≤ x then s.mem.read (s.i.toNat + r.val) else s.reg r)

/-- The round-trip law of R107 (test vector S8): loading back from the I of a completed store, in any state with that memory,
restores V0..Vx and changes no other register. -/
def Obligations.StoreThenLoadRestoresRegisters : Prop :=
  ∀ (x : RegIdx) (s t u : State), exec (.ldMemVx x) s = .next t → t.outcome = some .completed → u.mem = t.mem → u.i = s.i →
    ∃ z, exec (.ldVxMem x) u = .next z ∧ u.CompletesAs z { u.toCoreState with v := z.v } ∧
      ∀ r : RegIdx, z.reg r = if r ≤ x then s.reg r else u.reg r

/-- A store is seen by the next fetch (R50; decision D22, log 21): after a completed `Fx55` or `Fx33`, wherever it stored, the next
step fetches from PC the word of the two bytes as the store left them: each of the two that lies in the stored range is the
register or the digit stored there, so a store that covers both, one or neither of them is spoken of. -/
def Obligations.StoreIsSeenByTheNextFetch : Prop :=
  ∀ (x : RegIdx) (s t : State), s.wait = none → s.pc.toNat + 1 ≤ 0xFFF → t.outcome = some .completed →
    (exec (.ldMemVx x) s = .next t →
      let after : Nat → Byte := fun a =>
        if s.i.toNat ≤ a ∧ a ≤ s.i.toNat + x.val then s.reg (Fin.ofNat 16 (a - s.i.toNat)) else s.mem.read a
      t.Fetches (after s.pc.toNat ++ after (s.pc.toNat + 1))) ∧
    (exec (.ldB x) s = .next t →
      let after : Nat → Byte := fun a =>
        if a = s.i.toNat then BitVec.ofNat 8 ((s.reg x).toNat / 100)
        else if a = s.i.toNat + 1 then BitVec.ofNat 8 ((s.reg x).toNat / 10 % 10)
        else if a = s.i.toNat + 2 then BitVec.ofNat 8 ((s.reg x).toNat % 10) else s.mem.read a
      t.Fetches (after s.pc.toNat ++ after (s.pc.toNat + 1)))

/-! ## Display (44_display.md) -/

/-- `00E0` turns all 2048 pixels off and does nothing else (R110); clearing a clear framebuffer changes nothing. The first clause
says that the word 0x00E0 and no other decodes to it, which is the exact match of decision D7 (R60, log 14). -/
def Obligations.ClsTurnsEveryPixelOff : Prop :=
  (∀ w, decodeWord w = some .cls ↔ w = 0x00E0) ∧
  ∀ s : State, ∃ t, exec .cls s = .next t ∧ s.CompletesAs t { s.toCoreState with fb := t.fb } ∧
    (∀ py px, pixel t.fb py px = false) ∧ ((∀ py px, pixel s.fb py px = false) → t.fb = s.fb)

/-- R111 to R114: a draw whose rows lie in memory XORs each pixel with the sprite's bit there, the origin taken mod 64 and mod 32
and the pixels clipped; VF becomes 1 exactly when a sprite bit fell on a pixel that was on, else 0; nothing else changes. The
sprite's rows are the n bytes at I, none when n = 0, and the bit in column c of a row is bit 7 - c of its byte (R109). A draw with n >= 1 whose last row lies outside memory raises
MemoryBoundsError and changes nothing after the fetch, wherever its origin is (the check of all rows first is decision D14). -/
def Obligations.DrwXorsTheSprite : Prop :=
  ∀ (x y : RegIdx) (n : Fin 16) (s : State),
    (1 ≤ n.val ∧ 0xFFF < s.i.toNat + n.val - 1 → ∃ t, exec (.drw x y n) s = .next t ∧ s.RaisesAs t .memoryBounds) ∧
    (n.val = 0 ∨ s.i.toNat + n.val - 1 ≤ 0xFFF →
      ∃ t, exec (.drw x y n) s = .next t ∧ s.CompletesAs t { s.toCoreState with fb := t.fb, v := t.v } ∧
        let on := spriteOn ((s.reg x).toNat % 64) ((s.reg y).toNat % 32) (s.mem.readBytes s.i.toNat n.val)
        (∀ py px, pixel t.fb py px = (pixel s.fb py px ^^ on py px)) ∧
        (t.reg flagReg = 1 ↔ ∃ py px, on py px = true ∧ pixel s.fb py px = true) ∧
        (t.reg flagReg = 0 ↔ ∀ py px, on py px = true → pixel s.fb py px = false) ∧
        ∀ r, r ≠ flagReg → t.reg r = s.reg r)

/-- R112: XOR drawing is reversible by redrawing: the same draw again, its origin registers not being VF, restores every
pixel. -/
def Obligations.DrawingTwiceRestoresTheFramebuffer : Prop :=
  ∀ (x y : RegIdx) (n : Fin 16) (s t : State), x ≠ flagReg → y ≠ flagReg → exec (.drw x y n) s = .next t →
    ∃ z, exec (.drw x y n) t = .next z ∧ z.fb = s.fb ∧ z.outcome = t.outcome

/-! ## Keypad and timers (45_keypad_timers.md) -/

/-- R115 to R117: `Ex9E` skips exactly when the key V[x] is down in this step's sample, `ExA1` exactly when it is up; neither
does anything else. A V[x] above 0xF raises KeyIndexError (decision D12; the sampling is decision D23). -/
def Obligations.KeySkipsFollowTheSample : Prop :=
  ∀ (x : RegIdx) (s : State),
    (0xF < (s.reg x).toNat → (∃ t, exec (.skp x) s = .next t ∧ s.RaisesAs t .keyIndex) ∧
      (∃ t, exec (.sknp x) s = .next t ∧ s.RaisesAs t .keyIndex)) ∧
    (∀ k : Fin 16, (s.reg x).toNat = k.val →
      (∃ t, exec (.skp x) s = .next t ∧ s.CompletesAs t { s.toCoreState with pc := t.pc } ∧
        t.pc.toNat = if s.keys.get k then (s.pc.toNat + 2) % 2 ^ 16 else s.pc.toNat) ∧
      (∃ t, exec (.sknp x) s = .next t ∧ s.CompletesAs t { s.toCoreState with pc := t.pc } ∧
        t.pc.toNat = if s.keys.get k then s.pc.toNat else (s.pc.toNat + 2) % 2 ^ 16))

/-- R118, in both modes (decision D13; the mode of the core is left open, log 7). `edge`: `Fx0A` always suspends, the latch
holding x and this step's sample. `level`: the least key that is down goes to Vx at once, and with no key down it suspends. PC
keeps the post-fetch value. -/
def Obligations.LdVxKBeginsAKeyWait : Prop :=
  ∀ (x : RegIdx) (s : State),
    exec (.ldVxK x) s = .next (s.beginKeyWait Config.keywaitMode x) ∧
    s.WaitsAs (s.beginKeyWait .edge x) { s.toCoreState with wait := some ⟨x, s.keys⟩ } ∧
    ((∀ k, s.keys.get k = false) → s.WaitsAs (s.beginKeyWait .level x) { s.toCoreState with wait := some ⟨x, s.keys⟩ }) ∧
    (∀ k : Fin 16, s.keys.get k = true → (∀ j, j < k → s.keys.get j = false) →
      s.CompletesAs (s.beginKeyWait .level x) { s.toCoreState with v := (s.beginKeyWait .level x).v } ∧
      ((s.beginKeyWait .level x).reg x).toNat = k.val ∧ ∀ r, r ≠ x → (s.beginKeyWait .level x).reg r = s.reg r)

/-- R119: with a wait pending a step fetches nothing and is the waiting step on this step's sample, in the mode of the core; and
the waiting step in both modes (decision D13). The least qualifying key (`edge`: down now and up in the snapshot; `level`: down
now) goes to Vx, the latch is cleared and the step is Completed; with no qualifying key the step is WaitingForKey and only the
snapshot changes, in `edge`, to this step's sample. Nothing else changes. -/
def Obligations.WaitingStepTakesTheLeastKey : Prop :=
  ∀ (s : State) (w : KeyWait), s.wait = some w →
    (∀ keys rand8, stepWith keys rand8 s = .next ((s.sample keys rand8).waitStep Config.keywaitMode w)) ∧
    ∀ mode : KeywaitMode,
      let new : Fin 16 → Bool := fun k => s.keys.get k && (mode == .level || !w.prev.get k)
      let t := s.waitStep mode w
      ((∀ k, new k = false) →
        s.WaitsAs t { s.toCoreState with wait := some (if mode = .edge then ⟨w.x, s.keys⟩ else w) }) ∧
      (∀ k : Fin 16, new k = true → (∀ j, j < k → new j = false) →
        s.CompletesAs t { s.toCoreState with v := t.v, wait := none } ∧
        (t.reg w.x).toNat = k.val ∧ ∀ r, r ≠ w.x → t.reg r = s.reg r)

/-- R120 to R122: `Fx07` sets Vx to DT, `Fx15` sets DT to Vx, `Fx18` sets ST to Vx, and none of them does anything else. -/
def Obligations.TimerInstructionsMoveOneByte : Prop :=
  EncodedAs 0xF0FF 0xF007 (fun f => .ldVxDt f.x) ∧ EncodedAs 0xF0FF 0xF015 (fun f => .ldDtVx f.x) ∧
  EncodedAs 0xF0FF 0xF018 (fun f => .ldStVx f.x) ∧
  ∀ (x : RegIdx) (s : State),
    (∃ t, exec (.ldVxDt x) s = .next t ∧ s.CompletesAs t { s.toCoreState with v := t.v } ∧
      ∀ r, t.reg r = if r = x then s.dt else s.reg r) ∧
    (∃ t, exec (.ldDtVx x) s = .next t ∧ s.CompletesAs t { s.toCoreState with dt := s.reg x }) ∧
    (∃ t, exec (.ldStVx x) s = .next t ∧ s.CompletesAs t { s.toCoreState with st := s.reg x })

/-! ## Host ports and reset (60_exceptions.md, 70_reset_and_hazards.md) -/

/-- R135: a tick decrements DT and ST by 1 each if they are above 0 and changes nothing else, in any state, a pending wait
included. -/
def Obligations.TickCountsBothTimersDown : Prop :=
  ∀ s : State, s.tickTimers = { s with dt := s.tickTimers.dt, st := s.tickTimers.st } ∧
    s.tickTimers.dt.toNat = s.dt.toNat - 1 ∧ s.tickTimers.st.toNat = s.st.toNat - 1

/-- A load of at most 3584 bytes copies them to 0x200 and on and returns Ok, and a load of no bytes writes nothing (R148). Every
other byte keeps its value (R45), and nothing but memory changes, in any state, after steps as before them (R150). That a late or
repeated load means the same and writes memory only is decision D18 (log 10). -/
def Obligations.LoadCopiesTheProgram : Prop :=
  ∀ (s : State) (bytes : List Byte), bytes.length ≤ 3584 →
    (s.load bytes).1 = .ok ∧ (s.load bytes).2 = { s with mem := (s.load bytes).2.mem } ∧
    (∀ k b, bytes[k]? = some b → (s.load bytes).2.mem.read (0x200 + k) = b) ∧
    (∀ a, a < 0x200 ∨ 0x200 + bytes.length ≤ a → (s.load bytes).2.mem.read a = s.mem.read a) ∧
    (s.load []).2 = s

/-- R149: a load of more than 3584 bytes returns Error(ProgramTooLarge) and writes nothing (that a failing load writes nothing
is decision D18; the model records the error, log 2). -/
def Obligations.LoadOfTooMuchIsRefused : Prop :=
  ∀ (s : State) (bytes : List Byte), 3584 < bytes.length →
    (s.load bytes).1 = .error .programTooLarge ∧ (s.load bytes).2.toCoreState = s.toCoreState

/-- R29: the core after construction, as the spec's decisions D1 to D5 and D13 give it. -/
def Obligations.ResetValues : Prop :=
  (∀ a (h : a < 0x50), State.reset.mem.read a = Config.fontRom[a]) ∧ (∀ a, 0x50 ≤ a → State.reset.mem.read a = 0) ∧
  (∀ r, State.reset.reg r = 0) ∧ State.reset.i = 0 ∧ State.reset.pc = 0x200 ∧ State.reset.sp = 0 ∧
  (∀ k, State.reset.stack.get k = 0) ∧ State.reset.dt = 0 ∧ State.reset.st = 0 ∧ State.reset.wait = none ∧
  ∀ py px, pixel State.reset.fb py px = false

/-- The model's record of errors is never cleared (R130; decision D16): after any order of host operations it ends in what it
held before. That the construction of a new core does not clear it either is the model's choice (log 2). -/
def Obligations.ErrorRecordIsNeverCleared : Prop :=
  ∀ (ops : List HostOp) (s : State), s.errorLog <:+ (s.runOps ops).errorLog
end

