-- ==== Sys2Proof/Laws/Decode.lean ====
section
/-! SUPPORT. The bit fields in arithmetic, the masks of the opcode table against the fields, and decoding from bytes. -/

namespace Sys2Proof

/-- Concatenation of two bytes, in arithmetic. -/
theorem toNat_append_bytes (hi lo : Byte) : (hi ++ lo : Word).toNat = hi.toNat * 256 + lo.toNat := by
  have hl := lo.isLt
  rw [BitVec.toNat_append, Nat.shiftLeft_eq, ← Nat.mul_comm (2 ^ 8), ← Nat.two_pow_add_eq_or_of_lt hl]

/-- The two bytes memory holds for a word make the word again. -/
theorem append_bytesOfWord (w : Word) :
    (BitVec.ofNat 8 (bits w 15 8) ++ BitVec.ofNat 8 (bits w 7 0) : Word) = w := by
  apply BitVec.eq_of_toNat_eq
  have := w.isLt
  rw [toNat_append_bytes]
  simp only [BitVec.toNat_ofNat, bits]
  omega

/-- Decoding the bytes of a word, whatever follows them, is decoding the word. -/
theorem decode_bytesOfWord (w : Word) (rest : List Byte) :
    decode (bytesOfWord w ++ rest) =
      match decodeWord w with
      | some i => .instr i rest
      | none   => .reject (.unimplemented w) := by
  cases h : decodeWord w <;>
    simp only [bytesOfWord, List.cons_append, List.nil_append, decode, append_bytesOfWord, h]

/-- A word of the table's numbering, all 16 bits given, decodes as `decodeWord` says. -/
theorem decodeTableWord_eq (w : Word) : decodeTableWord 16 w.toNat = decodeWord w := by
  have h : tableWord 16 w.toNat = w := by
    apply BitVec.eq_of_toNat_eq
    have := w.isLt
    simp only [tableWord, BitVec.toNat_ofNat]
    omega
  have := decode_bytesOfWord w []
  rw [List.append_nil] at this
  rw [decodeTableWord, h, this]
  cases decodeWord w <;> rfl

theorem bits_15_12 (w : Word) : bits w 15 12 = w.toNat / 4096 := by
  have := w.isLt
  simp only [bits]
  omega

theorem bits_11_8 (w : Word) : bits w 11 8 = w.toNat / 256 % 16 := rfl
theorem bits_7_4 (w : Word) : bits w 7 4 = w.toNat / 16 % 16 := rfl

theorem bits_3_0 (w : Word) : bits w 3 0 = w.toNat % 16 := by simp only [bits]; omega
theorem bits_7_0 (w : Word) : bits w 7 0 = w.toNat % 256 := by simp only [bits]; omega
theorem bits_11_0 (w : Word) : bits w 11 0 = w.toNat % 4096 := by simp only [bits]; omega

@[simp] theorem fields_cls_val (w : Word) : (fields w).cls.val = w.toNat / 4096 := by
  have := w.isLt
  simp only [fields, bits_15_12, Fin.ofNat]
  omega

@[simp] theorem fields_x_val (w : Word) : (fields w).x.val = w.toNat / 256 % 16 := by
  simp only [fields, bits_11_8, Fin.ofNat]
  omega

@[simp] theorem fields_y_val (w : Word) : (fields w).y.val = w.toNat / 16 % 16 := by
  simp only [fields, bits_7_4, Fin.ofNat]
  omega

@[simp] theorem fields_n_val (w : Word) : (fields w).n.val = w.toNat % 16 := by
  simp only [fields, bits_3_0, Fin.ofNat]
  omega

@[simp] theorem fields_nn_toNat (w : Word) : (fields w).nn.toNat = w.toNat % 256 := by
  simp only [fields, bits_7_0, BitVec.toNat_ofNat]
  omega

@[simp] theorem fields_nnn_toNat (w : Word) : (fields w).nnn.toNat = w.toNat % 4096 := by
  simp only [fields, bits_11_0, BitVec.toNat_ofNat]
  omega

/-! ### Masks -/

theorem toNat_and_F000 (w : Word) : (w &&& 0xF000).toNat = w.toNat / 4096 * 4096 := by
  have h : w &&& (0xF000 : Word) = (w >>> (12 : Nat)) <<< (12 : Nat) := by
    apply BitVec.eq_of_getLsbD_eq
    intro i hi
    interval_cases i <;> simp
  have := w.isLt
  rw [h, BitVec.toNat_shiftLeft, BitVec.toNat_ushiftRight, Nat.shiftLeft_eq, Nat.shiftRight_eq_div_pow]
  omega

theorem toNat_and_000F (w : Word) : (w &&& 0x000F).toNat = w.toNat % 16 := by
  rw [BitVec.toNat_and]
  exact Nat.and_two_pow_sub_one_eq_mod _ 4

theorem toNat_and_00FF (w : Word) : (w &&& 0x00FF).toNat = w.toNat % 256 := by
  rw [BitVec.toNat_and]
  exact Nat.and_two_pow_sub_one_eq_mod _ 8

/-- The class of a word, by mask. -/
theorem and_F000 (w : Word) (c : Nat) (hc : c < 16) :
    w &&& 0xF000 = BitVec.ofNat 16 (c * 4096) ↔ w.toNat / 4096 = c := by
  have := w.isLt
  rw [← BitVec.toNat_inj, toNat_and_F000, BitVec.toNat_ofNat]
  omega

/-- The low nibble of a word, by mask. -/
theorem and_000F (w : Word) (n : Nat) (hn : n < 16) :
    w &&& 0x000F = BitVec.ofNat 16 n ↔ w.toNat % 16 = n := by
  rw [← BitVec.toNat_inj, toNat_and_000F, BitVec.toNat_ofNat]
  omega

/-- The low byte of a word, by mask. -/
theorem and_00FF (w : Word) (n : Nat) (hn : n < 256) :
    w &&& 0x00FF = BitVec.ofNat 16 n ↔ w.toNat % 256 = n := by
  rw [← BitVec.toNat_inj, toNat_and_00FF, BitVec.toNat_ofNat]
  omega

/-- Class and low nibble together. -/
theorem and_F00F (w : Word) (c n : Nat) (hc : c < 16) (hn : n < 16) :
    w &&& 0xF00F = BitVec.ofNat 16 (c * 4096 + n) ↔ w.toNat / 4096 = c ∧ w.toNat % 16 = n := by
  have hw := w.isLt
  have h1 : (w &&& 0xF00F) &&& 0xF000 = w &&& 0xF000 := by rw [BitVec.and_assoc]; rfl
  have h2 : (w &&& 0xF00F) &&& 0x000F = w &&& 0x000F := by rw [BitVec.and_assoc]; rfl
  have h3 := toNat_and_F000 (w &&& 0xF00F)
  have h4 := toNat_and_000F (w &&& 0xF00F)
  rw [h1, toNat_and_F000] at h3
  rw [h2, toNat_and_000F] at h4
  have h5 : (w &&& 0xF00F).toNat ≤ 0xF00F := by rw [BitVec.toNat_and]; exact Nat.and_le_right
  have h6 : (w &&& 0xF00F).toNat % 4096 / 16 = 0 := by
    have h7 : (w &&& 0xF00F) &&& 0x0FF0 = 0 := by rw [BitVec.and_assoc]; exact BitVec.and_zero
    have h8 : ((w &&& 0xF00F) >>> 4) &&& 0x00FF = 0 := by
      apply BitVec.eq_of_getLsbD_eq
      intro i hi
      interval_cases i <;> simp
    have h9 := toNat_and_00FF ((w &&& 0xF00F) >>> 4)
    rw [h8, BitVec.toNat_ushiftRight, Nat.shiftRight_eq_div_pow] at h9
    have h10 : (0 : Word).toNat = 0 := rfl
    omega
  rw [← BitVec.toNat_inj, BitVec.toNat_ofNat]
  omega

/-- Class and low byte together. -/
theorem and_F0FF (w : Word) (c n : Nat) (hc : c < 16) (hn : n < 256) :
    w &&& 0xF0FF = BitVec.ofNat 16 (c * 4096 + n) ↔ w.toNat / 4096 = c ∧ w.toNat % 256 = n := by
  have hw := w.isLt
  have h1 : (w &&& 0xF0FF) &&& 0xF000 = w &&& 0xF000 := by rw [BitVec.and_assoc]; rfl
  have h2 : (w &&& 0xF0FF) &&& 0x00FF = w &&& 0x00FF := by rw [BitVec.and_assoc]; rfl
  have h3 := toNat_and_F000 (w &&& 0xF0FF)
  have h4 := toNat_and_00FF (w &&& 0xF0FF)
  rw [h1, toNat_and_F000] at h3
  rw [h2, toNat_and_00FF] at h4
  have h6 : (w &&& 0xF0FF).toNat % 4096 / 256 = 0 := by
    have h8 : ((w &&& 0xF0FF) >>> 8) &&& 0x000F = 0 := by
      apply BitVec.eq_of_getLsbD_eq
      intro i hi
      interval_cases i <;> simp
    have h9 := toNat_and_000F ((w &&& 0xF0FF) >>> 8)
    rw [h8, BitVec.toNat_ushiftRight, Nat.shiftRight_eq_div_pow] at h9
    have h10 : (0 : Word).toNat = 0 := rfl
    omega
  rw [← BitVec.toNat_inj, BitVec.toNat_ofNat]
  omega

/-! ### Encoded words in arithmetic -/

theorem toNat_encAddr {cls : Nat} (h : cls < 16) (nnn : Addr12) : (encAddr cls nnn).toNat = cls * 4096 + nnn.toNat := by
  have := nnn.isLt
  simp only [encAddr, BitVec.toNat_ofNat]
  omega

theorem toNat_encRegImm {cls : Nat} (h : cls < 16) (x : RegIdx) (kk : Byte) :
    (encRegImm cls x kk).toNat = cls * 4096 + x.val * 256 + kk.toNat := by
  have := kk.isLt
  have := x.isLt
  simp only [encRegImm, BitVec.toNat_ofNat]
  omega

theorem toNat_encRegReg {cls n : Nat} (h : cls < 16) (hn : n < 16) (x y : RegIdx) :
    (encRegReg cls x y n).toNat = cls * 4096 + x.val * 256 + y.val * 16 + n := by
  have := x.isLt
  have := y.isLt
  simp only [encRegReg, BitVec.toNat_ofNat]
  omega

end Sys2Proof
end

