-- ==== Sys2Proof/Laws/State.lean ====
section
/-! SUPPORT. One lemma per field per update of the state, true by rfl, and how each update acts on the core's state as a
whole. -/

namespace Sys2Proof.Machine

/-! ### withMem -/

@[simp] theorem State.withMem_mem (s : State) (m : Memory) : (s.withMem m).mem = m := rfl
@[simp] theorem State.withMem_v (s : State) (m : Memory) : (s.withMem m).v = s.v := rfl
@[simp] theorem State.withMem_pc (s : State) (m : Memory) : (s.withMem m).pc = s.pc := rfl
@[simp] theorem State.withMem_i (s : State) (m : Memory) : (s.withMem m).i = s.i := rfl
@[simp] theorem State.withMem_sp (s : State) (m : Memory) : (s.withMem m).sp = s.sp := rfl
@[simp] theorem State.withMem_stack (s : State) (m : Memory) : (s.withMem m).stack = s.stack := rfl
@[simp] theorem State.withMem_dt (s : State) (m : Memory) : (s.withMem m).dt = s.dt := rfl
@[simp] theorem State.withMem_st (s : State) (m : Memory) : (s.withMem m).st = s.st := rfl
@[simp] theorem State.withMem_wait (s : State) (m : Memory) : (s.withMem m).wait = s.wait := rfl
@[simp] theorem State.withMem_fb (s : State) (m : Memory) : (s.withMem m).fb = s.fb := rfl
@[simp] theorem State.withMem_keys (s : State) (m : Memory) : (s.withMem m).keys = s.keys := rfl
@[simp] theorem State.withMem_rand8 (s : State) (m : Memory) : (s.withMem m).rand8 = s.rand8 := rfl
@[simp] theorem State.withMem_samples (s : State) (m : Memory) : (s.withMem m).samples = s.samples := rfl
@[simp] theorem State.withMem_outcome (s : State) (m : Memory) : (s.withMem m).outcome = s.outcome := rfl
@[simp] theorem State.withMem_errorLog (s : State) (m : Memory) : (s.withMem m).errorLog = s.errorLog := rfl
theorem State.withMem_core (s : State) (m : Memory) : (s.withMem m).toCoreState = { s.toCoreState with mem := m } := rfl

/-! ### withV -/

@[simp] theorem State.withV_mem (s : State) (v : Vector Byte 16) : (s.withV v).mem = s.mem := rfl
@[simp] theorem State.withV_v (s : State) (v : Vector Byte 16) : (s.withV v).v = v := rfl
@[simp] theorem State.withV_pc (s : State) (v : Vector Byte 16) : (s.withV v).pc = s.pc := rfl
@[simp] theorem State.withV_i (s : State) (v : Vector Byte 16) : (s.withV v).i = s.i := rfl
@[simp] theorem State.withV_sp (s : State) (v : Vector Byte 16) : (s.withV v).sp = s.sp := rfl
@[simp] theorem State.withV_stack (s : State) (v : Vector Byte 16) : (s.withV v).stack = s.stack := rfl
@[simp] theorem State.withV_dt (s : State) (v : Vector Byte 16) : (s.withV v).dt = s.dt := rfl
@[simp] theorem State.withV_st (s : State) (v : Vector Byte 16) : (s.withV v).st = s.st := rfl
@[simp] theorem State.withV_wait (s : State) (v : Vector Byte 16) : (s.withV v).wait = s.wait := rfl
@[simp] theorem State.withV_fb (s : State) (v : Vector Byte 16) : (s.withV v).fb = s.fb := rfl
@[simp] theorem State.withV_keys (s : State) (v : Vector Byte 16) : (s.withV v).keys = s.keys := rfl
@[simp] theorem State.withV_rand8 (s : State) (v : Vector Byte 16) : (s.withV v).rand8 = s.rand8 := rfl
@[simp] theorem State.withV_samples (s : State) (v : Vector Byte 16) : (s.withV v).samples = s.samples := rfl
@[simp] theorem State.withV_outcome (s : State) (v : Vector Byte 16) : (s.withV v).outcome = s.outcome := rfl
@[simp] theorem State.withV_errorLog (s : State) (v : Vector Byte 16) : (s.withV v).errorLog = s.errorLog := rfl
theorem State.withV_core (s : State) (v : Vector Byte 16) : (s.withV v).toCoreState = { s.toCoreState with v := v } := rfl

/-! ### withPc -/

@[simp] theorem State.withPc_mem (s : State) (a : Word) : (s.withPc a).mem = s.mem := rfl
@[simp] theorem State.withPc_v (s : State) (a : Word) : (s.withPc a).v = s.v := rfl
@[simp] theorem State.withPc_pc (s : State) (a : Word) : (s.withPc a).pc = a := rfl
@[simp] theorem State.withPc_i (s : State) (a : Word) : (s.withPc a).i = s.i := rfl
@[simp] theorem State.withPc_sp (s : State) (a : Word) : (s.withPc a).sp = s.sp := rfl
@[simp] theorem State.withPc_stack (s : State) (a : Word) : (s.withPc a).stack = s.stack := rfl
@[simp] theorem State.withPc_dt (s : State) (a : Word) : (s.withPc a).dt = s.dt := rfl
@[simp] theorem State.withPc_st (s : State) (a : Word) : (s.withPc a).st = s.st := rfl
@[simp] theorem State.withPc_wait (s : State) (a : Word) : (s.withPc a).wait = s.wait := rfl
@[simp] theorem State.withPc_fb (s : State) (a : Word) : (s.withPc a).fb = s.fb := rfl
@[simp] theorem State.withPc_keys (s : State) (a : Word) : (s.withPc a).keys = s.keys := rfl
@[simp] theorem State.withPc_rand8 (s : State) (a : Word) : (s.withPc a).rand8 = s.rand8 := rfl
@[simp] theorem State.withPc_samples (s : State) (a : Word) : (s.withPc a).samples = s.samples := rfl
@[simp] theorem State.withPc_outcome (s : State) (a : Word) : (s.withPc a).outcome = s.outcome := rfl
@[simp] theorem State.withPc_errorLog (s : State) (a : Word) : (s.withPc a).errorLog = s.errorLog := rfl
theorem State.withPc_core (s : State) (a : Word) : (s.withPc a).toCoreState = { s.toCoreState with pc := a } := rfl

/-! ### withI -/

@[simp] theorem State.withI_mem (s : State) (a : Word) : (s.withI a).mem = s.mem := rfl
@[simp] theorem State.withI_v (s : State) (a : Word) : (s.withI a).v = s.v := rfl
@[simp] theorem State.withI_pc (s : State) (a : Word) : (s.withI a).pc = s.pc := rfl
@[simp] theorem State.withI_i (s : State) (a : Word) : (s.withI a).i = a := rfl
@[simp] theorem State.withI_sp (s : State) (a : Word) : (s.withI a).sp = s.sp := rfl
@[simp] theorem State.withI_stack (s : State) (a : Word) : (s.withI a).stack = s.stack := rfl
@[simp] theorem State.withI_dt (s : State) (a : Word) : (s.withI a).dt = s.dt := rfl
@[simp] theorem State.withI_st (s : State) (a : Word) : (s.withI a).st = s.st := rfl
@[simp] theorem State.withI_wait (s : State) (a : Word) : (s.withI a).wait = s.wait := rfl
@[simp] theorem State.withI_fb (s : State) (a : Word) : (s.withI a).fb = s.fb := rfl
@[simp] theorem State.withI_keys (s : State) (a : Word) : (s.withI a).keys = s.keys := rfl
@[simp] theorem State.withI_rand8 (s : State) (a : Word) : (s.withI a).rand8 = s.rand8 := rfl
@[simp] theorem State.withI_samples (s : State) (a : Word) : (s.withI a).samples = s.samples := rfl
@[simp] theorem State.withI_outcome (s : State) (a : Word) : (s.withI a).outcome = s.outcome := rfl
@[simp] theorem State.withI_errorLog (s : State) (a : Word) : (s.withI a).errorLog = s.errorLog := rfl
theorem State.withI_core (s : State) (a : Word) : (s.withI a).toCoreState = { s.toCoreState with i := a } := rfl

/-! ### withSp -/

@[simp] theorem State.withSp_mem (s : State) (k : Fin 17) : (s.withSp k).mem = s.mem := rfl
@[simp] theorem State.withSp_v (s : State) (k : Fin 17) : (s.withSp k).v = s.v := rfl
@[simp] theorem State.withSp_pc (s : State) (k : Fin 17) : (s.withSp k).pc = s.pc := rfl
@[simp] theorem State.withSp_i (s : State) (k : Fin 17) : (s.withSp k).i = s.i := rfl
@[simp] theorem State.withSp_sp (s : State) (k : Fin 17) : (s.withSp k).sp = k := rfl
@[simp] theorem State.withSp_stack (s : State) (k : Fin 17) : (s.withSp k).stack = s.stack := rfl
@[simp] theorem State.withSp_dt (s : State) (k : Fin 17) : (s.withSp k).dt = s.dt := rfl
@[simp] theorem State.withSp_st (s : State) (k : Fin 17) : (s.withSp k).st = s.st := rfl
@[simp] theorem State.withSp_wait (s : State) (k : Fin 17) : (s.withSp k).wait = s.wait := rfl
@[simp] theorem State.withSp_fb (s : State) (k : Fin 17) : (s.withSp k).fb = s.fb := rfl
@[simp] theorem State.withSp_keys (s : State) (k : Fin 17) : (s.withSp k).keys = s.keys := rfl
@[simp] theorem State.withSp_rand8 (s : State) (k : Fin 17) : (s.withSp k).rand8 = s.rand8 := rfl
@[simp] theorem State.withSp_samples (s : State) (k : Fin 17) : (s.withSp k).samples = s.samples := rfl
@[simp] theorem State.withSp_outcome (s : State) (k : Fin 17) : (s.withSp k).outcome = s.outcome := rfl
@[simp] theorem State.withSp_errorLog (s : State) (k : Fin 17) : (s.withSp k).errorLog = s.errorLog := rfl
theorem State.withSp_core (s : State) (k : Fin 17) : (s.withSp k).toCoreState = { s.toCoreState with sp := k } := rfl

/-! ### withStack -/

@[simp] theorem State.withStack_mem (s : State) (w : Vector Word 16) : (s.withStack w).mem = s.mem := rfl
@[simp] theorem State.withStack_v (s : State) (w : Vector Word 16) : (s.withStack w).v = s.v := rfl
@[simp] theorem State.withStack_pc (s : State) (w : Vector Word 16) : (s.withStack w).pc = s.pc := rfl
@[simp] theorem State.withStack_i (s : State) (w : Vector Word 16) : (s.withStack w).i = s.i := rfl
@[simp] theorem State.withStack_sp (s : State) (w : Vector Word 16) : (s.withStack w).sp = s.sp := rfl
@[simp] theorem State.withStack_stack (s : State) (w : Vector Word 16) : (s.withStack w).stack = w := rfl
@[simp] theorem State.withStack_dt (s : State) (w : Vector Word 16) : (s.withStack w).dt = s.dt := rfl
@[simp] theorem State.withStack_st (s : State) (w : Vector Word 16) : (s.withStack w).st = s.st := rfl
@[simp] theorem State.withStack_wait (s : State) (w : Vector Word 16) : (s.withStack w).wait = s.wait := rfl
@[simp] theorem State.withStack_fb (s : State) (w : Vector Word 16) : (s.withStack w).fb = s.fb := rfl
@[simp] theorem State.withStack_keys (s : State) (w : Vector Word 16) : (s.withStack w).keys = s.keys := rfl
@[simp] theorem State.withStack_rand8 (s : State) (w : Vector Word 16) : (s.withStack w).rand8 = s.rand8 := rfl
@[simp] theorem State.withStack_samples (s : State) (w : Vector Word 16) : (s.withStack w).samples = s.samples := rfl
@[simp] theorem State.withStack_outcome (s : State) (w : Vector Word 16) : (s.withStack w).outcome = s.outcome := rfl
@[simp] theorem State.withStack_errorLog (s : State) (w : Vector Word 16) : (s.withStack w).errorLog = s.errorLog := rfl
theorem State.withStack_core (s : State) (w : Vector Word 16) : (s.withStack w).toCoreState = { s.toCoreState with stack := w } := rfl

/-! ### withDt -/

@[simp] theorem State.withDt_mem (s : State) (b : Byte) : (s.withDt b).mem = s.mem := rfl
@[simp] theorem State.withDt_v (s : State) (b : Byte) : (s.withDt b).v = s.v := rfl
@[simp] theorem State.withDt_pc (s : State) (b : Byte) : (s.withDt b).pc = s.pc := rfl
@[simp] theorem State.withDt_i (s : State) (b : Byte) : (s.withDt b).i = s.i := rfl
@[simp] theorem State.withDt_sp (s : State) (b : Byte) : (s.withDt b).sp = s.sp := rfl
@[simp] theorem State.withDt_stack (s : State) (b : Byte) : (s.withDt b).stack = s.stack := rfl
@[simp] theorem State.withDt_dt (s : State) (b : Byte) : (s.withDt b).dt = b := rfl
@[simp] theorem State.withDt_st (s : State) (b : Byte) : (s.withDt b).st = s.st := rfl
@[simp] theorem State.withDt_wait (s : State) (b : Byte) : (s.withDt b).wait = s.wait := rfl
@[simp] theorem State.withDt_fb (s : State) (b : Byte) : (s.withDt b).fb = s.fb := rfl
@[simp] theorem State.withDt_keys (s : State) (b : Byte) : (s.withDt b).keys = s.keys := rfl
@[simp] theorem State.withDt_rand8 (s : State) (b : Byte) : (s.withDt b).rand8 = s.rand8 := rfl
@[simp] theorem State.withDt_samples (s : State) (b : Byte) : (s.withDt b).samples = s.samples := rfl
@[simp] theorem State.withDt_outcome (s : State) (b : Byte) : (s.withDt b).outcome = s.outcome := rfl
@[simp] theorem State.withDt_errorLog (s : State) (b : Byte) : (s.withDt b).errorLog = s.errorLog := rfl
theorem State.withDt_core (s : State) (b : Byte) : (s.withDt b).toCoreState = { s.toCoreState with dt := b } := rfl

/-! ### withSt -/

@[simp] theorem State.withSt_mem (s : State) (b : Byte) : (s.withSt b).mem = s.mem := rfl
@[simp] theorem State.withSt_v (s : State) (b : Byte) : (s.withSt b).v = s.v := rfl
@[simp] theorem State.withSt_pc (s : State) (b : Byte) : (s.withSt b).pc = s.pc := rfl
@[simp] theorem State.withSt_i (s : State) (b : Byte) : (s.withSt b).i = s.i := rfl
@[simp] theorem State.withSt_sp (s : State) (b : Byte) : (s.withSt b).sp = s.sp := rfl
@[simp] theorem State.withSt_stack (s : State) (b : Byte) : (s.withSt b).stack = s.stack := rfl
@[simp] theorem State.withSt_dt (s : State) (b : Byte) : (s.withSt b).dt = s.dt := rfl
@[simp] theorem State.withSt_st (s : State) (b : Byte) : (s.withSt b).st = b := rfl
@[simp] theorem State.withSt_wait (s : State) (b : Byte) : (s.withSt b).wait = s.wait := rfl
@[simp] theorem State.withSt_fb (s : State) (b : Byte) : (s.withSt b).fb = s.fb := rfl
@[simp] theorem State.withSt_keys (s : State) (b : Byte) : (s.withSt b).keys = s.keys := rfl
@[simp] theorem State.withSt_rand8 (s : State) (b : Byte) : (s.withSt b).rand8 = s.rand8 := rfl
@[simp] theorem State.withSt_samples (s : State) (b : Byte) : (s.withSt b).samples = s.samples := rfl
@[simp] theorem State.withSt_outcome (s : State) (b : Byte) : (s.withSt b).outcome = s.outcome := rfl
@[simp] theorem State.withSt_errorLog (s : State) (b : Byte) : (s.withSt b).errorLog = s.errorLog := rfl
theorem State.withSt_core (s : State) (b : Byte) : (s.withSt b).toCoreState = { s.toCoreState with st := b } := rfl

/-! ### withWait -/

@[simp] theorem State.withWait_mem (s : State) (w : Option KeyWait) : (s.withWait w).mem = s.mem := rfl
@[simp] theorem State.withWait_v (s : State) (w : Option KeyWait) : (s.withWait w).v = s.v := rfl
@[simp] theorem State.withWait_pc (s : State) (w : Option KeyWait) : (s.withWait w).pc = s.pc := rfl
@[simp] theorem State.withWait_i (s : State) (w : Option KeyWait) : (s.withWait w).i = s.i := rfl
@[simp] theorem State.withWait_sp (s : State) (w : Option KeyWait) : (s.withWait w).sp = s.sp := rfl
@[simp] theorem State.withWait_stack (s : State) (w : Option KeyWait) : (s.withWait w).stack = s.stack := rfl
@[simp] theorem State.withWait_dt (s : State) (w : Option KeyWait) : (s.withWait w).dt = s.dt := rfl
@[simp] theorem State.withWait_st (s : State) (w : Option KeyWait) : (s.withWait w).st = s.st := rfl
@[simp] theorem State.withWait_wait (s : State) (w : Option KeyWait) : (s.withWait w).wait = w := rfl
@[simp] theorem State.withWait_fb (s : State) (w : Option KeyWait) : (s.withWait w).fb = s.fb := rfl
@[simp] theorem State.withWait_keys (s : State) (w : Option KeyWait) : (s.withWait w).keys = s.keys := rfl
@[simp] theorem State.withWait_rand8 (s : State) (w : Option KeyWait) : (s.withWait w).rand8 = s.rand8 := rfl
@[simp] theorem State.withWait_samples (s : State) (w : Option KeyWait) : (s.withWait w).samples = s.samples := rfl
@[simp] theorem State.withWait_outcome (s : State) (w : Option KeyWait) : (s.withWait w).outcome = s.outcome := rfl
@[simp] theorem State.withWait_errorLog (s : State) (w : Option KeyWait) : (s.withWait w).errorLog = s.errorLog := rfl
theorem State.withWait_core (s : State) (w : Option KeyWait) : (s.withWait w).toCoreState = { s.toCoreState with wait := w } := rfl

/-! ### withFb -/

@[simp] theorem State.withFb_mem (s : State) (fb : Framebuffer) : (s.withFb fb).mem = s.mem := rfl
@[simp] theorem State.withFb_v (s : State) (fb : Framebuffer) : (s.withFb fb).v = s.v := rfl
@[simp] theorem State.withFb_pc (s : State) (fb : Framebuffer) : (s.withFb fb).pc = s.pc := rfl
@[simp] theorem State.withFb_i (s : State) (fb : Framebuffer) : (s.withFb fb).i = s.i := rfl
@[simp] theorem State.withFb_sp (s : State) (fb : Framebuffer) : (s.withFb fb).sp = s.sp := rfl
@[simp] theorem State.withFb_stack (s : State) (fb : Framebuffer) : (s.withFb fb).stack = s.stack := rfl
@[simp] theorem State.withFb_dt (s : State) (fb : Framebuffer) : (s.withFb fb).dt = s.dt := rfl
@[simp] theorem State.withFb_st (s : State) (fb : Framebuffer) : (s.withFb fb).st = s.st := rfl
@[simp] theorem State.withFb_wait (s : State) (fb : Framebuffer) : (s.withFb fb).wait = s.wait := rfl
@[simp] theorem State.withFb_fb (s : State) (fb : Framebuffer) : (s.withFb fb).fb = fb := rfl
@[simp] theorem State.withFb_keys (s : State) (fb : Framebuffer) : (s.withFb fb).keys = s.keys := rfl
@[simp] theorem State.withFb_rand8 (s : State) (fb : Framebuffer) : (s.withFb fb).rand8 = s.rand8 := rfl
@[simp] theorem State.withFb_samples (s : State) (fb : Framebuffer) : (s.withFb fb).samples = s.samples := rfl
@[simp] theorem State.withFb_outcome (s : State) (fb : Framebuffer) : (s.withFb fb).outcome = s.outcome := rfl
@[simp] theorem State.withFb_errorLog (s : State) (fb : Framebuffer) : (s.withFb fb).errorLog = s.errorLog := rfl
theorem State.withFb_core (s : State) (fb : Framebuffer) : (s.withFb fb).toCoreState = { s.toCoreState with fb := fb } := rfl

/-! ### sample -/

@[simp] theorem State.sample_mem (s : State) (keys : Keys) (rand8 : Byte) : (s.sample keys rand8).mem = s.mem := rfl
@[simp] theorem State.sample_v (s : State) (keys : Keys) (rand8 : Byte) : (s.sample keys rand8).v = s.v := rfl
@[simp] theorem State.sample_pc (s : State) (keys : Keys) (rand8 : Byte) : (s.sample keys rand8).pc = s.pc := rfl
@[simp] theorem State.sample_i (s : State) (keys : Keys) (rand8 : Byte) : (s.sample keys rand8).i = s.i := rfl
@[simp] theorem State.sample_sp (s : State) (keys : Keys) (rand8 : Byte) : (s.sample keys rand8).sp = s.sp := rfl
@[simp] theorem State.sample_stack (s : State) (keys : Keys) (rand8 : Byte) : (s.sample keys rand8).stack = s.stack := rfl
@[simp] theorem State.sample_dt (s : State) (keys : Keys) (rand8 : Byte) : (s.sample keys rand8).dt = s.dt := rfl
@[simp] theorem State.sample_st (s : State) (keys : Keys) (rand8 : Byte) : (s.sample keys rand8).st = s.st := rfl
@[simp] theorem State.sample_wait (s : State) (keys : Keys) (rand8 : Byte) : (s.sample keys rand8).wait = s.wait := rfl
@[simp] theorem State.sample_fb (s : State) (keys : Keys) (rand8 : Byte) : (s.sample keys rand8).fb = s.fb := rfl
@[simp] theorem State.sample_keys (s : State) (keys : Keys) (rand8 : Byte) : (s.sample keys rand8).keys = keys := rfl
@[simp] theorem State.sample_rand8 (s : State) (keys : Keys) (rand8 : Byte) : (s.sample keys rand8).rand8 = rand8 := rfl
@[simp] theorem State.sample_samples (s : State) (keys : Keys) (rand8 : Byte) : (s.sample keys rand8).samples = s.samples + 1 := rfl
@[simp] theorem State.sample_outcome (s : State) (keys : Keys) (rand8 : Byte) : (s.sample keys rand8).outcome = s.outcome := rfl
@[simp] theorem State.sample_errorLog (s : State) (keys : Keys) (rand8 : Byte) : (s.sample keys rand8).errorLog = s.errorLog := rfl
theorem State.sample_core (s : State) (keys : Keys) (rand8 : Byte) : (s.sample keys rand8).toCoreState = s.toCoreState := rfl

/-! ### completed -/

@[simp] theorem State.completed_mem (s : State) : s.completed.mem = s.mem := rfl
@[simp] theorem State.completed_v (s : State) : s.completed.v = s.v := rfl
@[simp] theorem State.completed_pc (s : State) : s.completed.pc = s.pc := rfl
@[simp] theorem State.completed_i (s : State) : s.completed.i = s.i := rfl
@[simp] theorem State.completed_sp (s : State) : s.completed.sp = s.sp := rfl
@[simp] theorem State.completed_stack (s : State) : s.completed.stack = s.stack := rfl
@[simp] theorem State.completed_dt (s : State) : s.completed.dt = s.dt := rfl
@[simp] theorem State.completed_st (s : State) : s.completed.st = s.st := rfl
@[simp] theorem State.completed_wait (s : State) : s.completed.wait = s.wait := rfl
@[simp] theorem State.completed_fb (s : State) : s.completed.fb = s.fb := rfl
@[simp] theorem State.completed_keys (s : State) : s.completed.keys = s.keys := rfl
@[simp] theorem State.completed_rand8 (s : State) : s.completed.rand8 = s.rand8 := rfl
@[simp] theorem State.completed_samples (s : State) : s.completed.samples = s.samples := rfl
@[simp] theorem State.completed_outcome (s : State) : s.completed.outcome = some .completed := rfl
@[simp] theorem State.completed_errorLog (s : State) : s.completed.errorLog = s.errorLog := rfl
theorem State.completed_core (s : State) : s.completed.toCoreState = s.toCoreState := rfl

/-! ### waiting -/

@[simp] theorem State.waiting_mem (s : State) : s.waiting.mem = s.mem := rfl
@[simp] theorem State.waiting_v (s : State) : s.waiting.v = s.v := rfl
@[simp] theorem State.waiting_pc (s : State) : s.waiting.pc = s.pc := rfl
@[simp] theorem State.waiting_i (s : State) : s.waiting.i = s.i := rfl
@[simp] theorem State.waiting_sp (s : State) : s.waiting.sp = s.sp := rfl
@[simp] theorem State.waiting_stack (s : State) : s.waiting.stack = s.stack := rfl
@[simp] theorem State.waiting_dt (s : State) : s.waiting.dt = s.dt := rfl
@[simp] theorem State.waiting_st (s : State) : s.waiting.st = s.st := rfl
@[simp] theorem State.waiting_wait (s : State) : s.waiting.wait = s.wait := rfl
@[simp] theorem State.waiting_fb (s : State) : s.waiting.fb = s.fb := rfl
@[simp] theorem State.waiting_keys (s : State) : s.waiting.keys = s.keys := rfl
@[simp] theorem State.waiting_rand8 (s : State) : s.waiting.rand8 = s.rand8 := rfl
@[simp] theorem State.waiting_samples (s : State) : s.waiting.samples = s.samples := rfl
@[simp] theorem State.waiting_outcome (s : State) : s.waiting.outcome = some .waitingForKey := rfl
@[simp] theorem State.waiting_errorLog (s : State) : s.waiting.errorLog = s.errorLog := rfl
theorem State.waiting_core (s : State) : s.waiting.toCoreState = s.toCoreState := rfl

/-! ### raise -/

@[simp] theorem State.raise_mem (s : State) (e : ErrorKind) : (s.raise e).mem = s.mem := rfl
@[simp] theorem State.raise_v (s : State) (e : ErrorKind) : (s.raise e).v = s.v := rfl
@[simp] theorem State.raise_pc (s : State) (e : ErrorKind) : (s.raise e).pc = s.pc := rfl
@[simp] theorem State.raise_i (s : State) (e : ErrorKind) : (s.raise e).i = s.i := rfl
@[simp] theorem State.raise_sp (s : State) (e : ErrorKind) : (s.raise e).sp = s.sp := rfl
@[simp] theorem State.raise_stack (s : State) (e : ErrorKind) : (s.raise e).stack = s.stack := rfl
@[simp] theorem State.raise_dt (s : State) (e : ErrorKind) : (s.raise e).dt = s.dt := rfl
@[simp] theorem State.raise_st (s : State) (e : ErrorKind) : (s.raise e).st = s.st := rfl
@[simp] theorem State.raise_wait (s : State) (e : ErrorKind) : (s.raise e).wait = s.wait := rfl
@[simp] theorem State.raise_fb (s : State) (e : ErrorKind) : (s.raise e).fb = s.fb := rfl
@[simp] theorem State.raise_keys (s : State) (e : ErrorKind) : (s.raise e).keys = s.keys := rfl
@[simp] theorem State.raise_rand8 (s : State) (e : ErrorKind) : (s.raise e).rand8 = s.rand8 := rfl
@[simp] theorem State.raise_samples (s : State) (e : ErrorKind) : (s.raise e).samples = s.samples := rfl
@[simp] theorem State.raise_outcome (s : State) (e : ErrorKind) : (s.raise e).outcome = some (.error e) := rfl
@[simp] theorem State.raise_errorLog (s : State) (e : ErrorKind) : (s.raise e).errorLog = e :: s.errorLog := rfl
theorem State.raise_core (s : State) (e : ErrorKind) : (s.raise e).toCoreState = s.toCoreState := rfl

/-- Two states with the same core state, inputs and record are the same state. -/
theorem State.ext_core {s t : State} (hc : s.toCoreState = t.toCoreState) (hk : s.keys = t.keys) (hr : s.rand8 = t.rand8)
    (hn : s.samples = t.samples) (ho : s.outcome = t.outcome) (he : s.errorLog = t.errorLog) : s = t := by
  cases s; cases t; simp_all

end Sys2Proof.Machine
end

