-- ==== Sys2Proof/Laws/Registers.lean ====
section
/-! SUPPORT. What the register, stack, skip and fetch operations do, once each. -/

namespace Sys2Proof.Machine

@[simp] theorem State.reg_setReg (s : State) (x r : RegIdx) (b : Byte) :
    (s.setReg x b).reg r = if r = x then b else s.reg r := by
  simp only [State.reg, State.setReg, State.withV_v, Vector.get_eq_getElem, Vector.getElem_set, Fin.ext_iff, eq_comm]

/-- `setReg` writes the one register; every other element of the state is as before. -/
theorem State.setReg_eq (s : State) (x : RegIdx) (b : Byte) : s.setReg x b = s.withV (s.v.set x.val b x.isLt) := rfl

/-- A state is unchanged for a register read by any update but `withV`. -/
theorem State.reg_congr {s t : State} (h : s.v = t.v) (r : RegIdx) : s.reg r = t.reg r := by
  simp only [State.reg, h]

/-- The write order of R87: VF holds the flag whatever x is, any other register x holds the result. -/
theorem State.reg_setRegFlag (s : State) (x r : RegIdx) (result flag : Byte) :
    (s.setRegFlag x result flag).reg r = if r = flagReg then flag else if r = x then result else s.reg r := by
  simp only [State.setRegFlag, State.reg_setReg]

/-- Two register files that read the same at every index are the same. -/
theorem State.v_ext {s t : State} (h : ∀ r, s.reg r = t.reg r) : s.v = t.v := by
  apply Vector.ext
  intro k hk
  have := h ⟨k, hk⟩
  simpa only [State.reg, Vector.get_eq_getElem] using this

/-- The register block written from a byte list: a register below its length takes its byte, the others keep theirs. -/
theorem State.reg_setRegBlock (s : State) (bytes : List Byte) (r : RegIdx) :
    (s.setRegBlock bytes).reg r = bytes[r.val]?.getD (s.reg r) := by
  simp only [State.reg, State.setRegBlock, State.withV_v, Vector.get_eq_getElem, Vector.getElem_ofFn]

@[simp] theorem State.regBlock_length (s : State) (x : RegIdx) : (s.regBlock x).length = x.val + 1 := by
  have := x.isLt
  simp only [State.regBlock, List.length_take, Vector.length_toList]
  omega

theorem State.regBlock_getElem? (s : State) (x : RegIdx) (r : RegIdx) (h : r ≤ x) :
    (s.regBlock x)[r.val]? = some (s.reg r) := by
  have hr : r.val < x.val + 1 := Nat.lt_succ_of_le h
  simp only [State.regBlock, List.getElem?_take, hr, if_true, State.reg, Vector.get_eq_getElem]
  simp

@[simp] theorem decimalDigits_length (v : Byte) : (decimalDigits v).length = 3 := rfl

/-- A push with a free slot writes the slot and counts it. -/
theorem State.push_eq_some (s : State) (a : Word) (h : s.sp.val < 16) :
    s.push a = some ((s.withStack (s.stack.set s.sp.val a h)).withSp ⟨s.sp.val + 1, by omega⟩) := by
  simp only [State.push, h, dif_pos]

/-- A push on a full stack fails. -/
theorem State.push_eq_none (s : State) (a : Word) (h : s.sp.val = 16) : s.push a = none := by
  simp [State.push, h]

/-- A pop with an occupied slot reads the slot and uncounts it. -/
theorem State.pop_eq_some (s : State) (h : s.sp.val ≠ 0) :
    s.pop = some (s.stack.get ⟨s.sp.val - 1, by omega⟩, s.withSp ⟨s.sp.val - 1, by omega⟩) := by
  simp only [State.pop, h, dif_neg, not_false_eq_true]

/-- A pop of an empty stack fails. -/
theorem State.pop_eq_none (s : State) (h : s.sp.val = 0) : s.pop = none := by
  simp [State.pop, h]

/-- A skip taken or not: PC is the only element it may change. -/
theorem State.skipIf_eq (s : State) (c : Bool) : s.skipIf c = s.withPc (if c then s.pc + 2 else s.pc) := by
  cases c <;> rfl

/-- A fetch inside memory reads the two bytes at PC and advances PC by 2. -/
theorem State.fetch_eq_some (s : State) (h : s.pc.toNat + 1 ≤ 0xFFF) :
    s.fetch = some ([s.mem.read s.pc.toNat, s.mem.read (s.pc.toNat + 1)], s.withPc (s.pc + 2)) := by
  have h' : inBounds s.pc.toNat 2 := by simp only [inBounds, Config.memSize]; omega
  simp only [State.fetch, State.memRead, h', if_true, Option.map_some]
  rfl

/-- A fetch outside memory fails. -/
theorem State.fetch_eq_none (s : State) (h : 0xFFF < s.pc.toNat + 1) : s.fetch = none := by
  have h' : ¬ inBounds s.pc.toNat 2 := by simp only [inBounds, Config.memSize]; omega
  simp only [State.fetch, State.memRead, h', if_false, Option.map_none]

end Sys2Proof.Machine
end

