-- ==== Sys2Proof/Laws/Display.lean ====
section
/-! SUPPORT. The draw loop, said once: every pixel after it is the pixel before it XOR the sprite's bit there, and the flag is
set exactly when the sprite has a bit on a pixel that was on. -/

namespace Sys2Proof.Machine

theorem pixel_drawPixel (px py : Nat) (bit : Bool) (acc : Framebuffer × Bool) (r : Fin 32) (c : Fin 64) :
    pixel (drawPixel px py bit acc).1 r c = (pixel acc.1 r c ^^ (decide (r.val = py ∧ c.val = px) && bit)) := by
  unfold drawPixel
  split
  · rename_i h
    by_cases hr : r.val = py
    · by_cases hc : c.val = px
      · subst hr hc
        simp [pixel, Vector.get_eq_getElem]
      · have hc' : px ≠ c.val := fun e => hc e.symm
        simp [pixel, Vector.get_eq_getElem, hr, hc, hc']
    · have hr' : py ≠ r.val := fun e => hr e.symm
      simp [pixel, Vector.get_eq_getElem, hr, hr']
  · rename_i h
    have : ¬ (r.val = py ∧ c.val = px) := fun e => h ⟨e.2 ▸ c.isLt, e.1 ▸ r.isLt⟩
    simp [this]

theorem flag_drawPixel (px py : Nat) (bit : Bool) (acc : Framebuffer × Bool) :
    (drawPixel px py bit acc).2 = true ↔
      acc.2 = true ∨ ∃ (r : Fin 32) (c : Fin 64), r.val = py ∧ c.val = px ∧ bit = true ∧ pixel acc.1 r c = true := by
  unfold drawPixel
  split
  · rename_i h
    simp only [collides, Bool.or_eq_true, Bool.and_eq_true]
    constructor
    · rintro (hf | ⟨hb, hp⟩)
      · exact .inl hf
      · exact .inr ⟨⟨py, h.2⟩, ⟨px, h.1⟩, rfl, rfl, hb, hp⟩
    · rintro (hf | ⟨r, c, rfl, rfl, hb, hp⟩)
      · exact .inl hf
      · exact .inr ⟨hb, hp⟩
  · rename_i h
    refine ⟨.inl, ?_⟩
    rintro (hf | ⟨r, c, rfl, rfl, -, -⟩)
    · exact hf
    · exact absurd ⟨c.isLt, r.isLt⟩ h

/-- The first m columns of a row. -/
theorem drawColumns (cx py : Nat) (row : Byte) (acc : Framebuffer × Bool) (m : Nat) :
    (∀ (r : Fin 32) (c : Fin 64),
      pixel ((List.range m).foldl (fun acc k => drawPixel (cx + k) py (spriteBit row k) acc) acc).1 r c =
        (pixel acc.1 r c ^^ (decide (r.val = py ∧ cx ≤ c.val ∧ c.val < cx + m) && spriteBit row (c.val - cx)))) ∧
    (((List.range m).foldl (fun acc k => drawPixel (cx + k) py (spriteBit row k) acc) acc).2 = true ↔
      acc.2 = true ∨ ∃ (r : Fin 32) (c : Fin 64), r.val = py ∧ cx ≤ c.val ∧ c.val < cx + m ∧
        spriteBit row (c.val - cx) = true ∧ pixel acc.1 r c = true) := by
  induction m with
  | zero =>
    constructor
    · intro r c
      have : ¬ (r.val = py ∧ cx ≤ c.val ∧ c.val < cx + 0) := by omega
      rw [decide_eq_false this]
      simp
    · simp only [List.range_zero, List.foldl_nil]
      refine ⟨.inl, ?_⟩
      rintro (h | ⟨r, c, -, h1, h2, -⟩)
      · exact h
      · omega
  | succ m ih =>
    rw [List.range_succ, List.foldl_append, List.foldl_cons, List.foldl_nil]
    constructor
    · intro r c
      rw [pixel_drawPixel, ih.1, Bool.xor_assoc]
      congr 1
      by_cases hc : c.val = cx + m
      · simp [hc]
      · have h1 : (c.val < cx + (m + 1)) ↔ c.val < cx + m := by omega
        simp [hc, h1]
    · rw [flag_drawPixel, ih.2]
      constructor
      · rintro ((h | ⟨r, c, h1, h2, h3, h4, h5⟩) | ⟨r, c, h1, h2, h3, h4⟩)
        · exact .inl h
        · exact .inr ⟨r, c, h1, h2, by omega, h4, h5⟩
        · rw [ih.1] at h4
          have e : c.val - cx = m := by omega
          have h5 : ¬ c.val < cx + m := by omega
          refine .inr ⟨r, c, h1, by omega, by omega, by rw [e]; exact h3, by simpa [h5] using h4⟩
      · rintro (h | ⟨r, c, h1, h2, h3, h4, h5⟩)
        · exact .inl (.inl h)
        · by_cases hc : c.val = cx + m
          · have e : c.val - cx = m := by omega
            have h6 : ¬ c.val < cx + m := by omega
            refine .inr ⟨r, c, h1, hc, by rw [← e]; exact h4, ?_⟩
            rw [ih.1]
            simpa [h6] using h5
          · exact .inl (.inr ⟨r, c, h1, h2, by omega, h4, h5⟩)

/-- The bit the draw loop reads is bit 7 - c of the row, in arithmetic (R109). -/
theorem spriteBit_eq (row : Byte) (c : Nat) : spriteBit row c = decide (row.toNat / 2 ^ (7 - c) % 2 = 1) := by
  rw [spriteBit, BitVec.getLsbD, Nat.testBit_eq_decide_div_mod_eq]

theorem spriteOn_cons (cx cy : Nat) (row : Byte) (rows : List Byte) (r : Fin 32) (c : Fin 64) :
    spriteOn cx cy (row :: rows) r c =
      ((decide (r.val = cy ∧ cx ≤ c.val ∧ c.val < cx + 8) && spriteBit row (c.val - cx)) || spriteOn cx (cy + 1) rows r c) := by
  unfold spriteOn
  rw [spriteBit_eq]
  rcases Nat.lt_trichotomy r.val cy with h | h | h
  · have h1 : ¬ cy ≤ r.val := by omega
    have h2 : ¬ cy + 1 ≤ r.val := by omega
    have h3 : r.val ≠ cy := by omega
    simp [h1, h2, h3]
  · have h1 : cy ≤ r.val := by omega
    have h2 : ¬ cy + 1 ≤ r.val := by omega
    simp [h]
  · have h1 : cy ≤ r.val := by omega
    have h2 : cy + 1 ≤ r.val := by omega
    have h3 : r.val ≠ cy := by omega
    have h4 : r.val - cy = (r.val - (cy + 1)) + 1 := by omega
    rw [h4]
    simp [h1, h2, h3]

/-- No pixel is covered by both a row and the rows below it. -/
theorem spriteOn_below (cx cy : Nat) (rows : List Byte) (r : Fin 32) (c : Fin 64) (h : r.val < cy) :
    spriteOn cx cy rows r c = false := by
  have : ¬ cy ≤ r.val := by omega
  simp [spriteOn, this]

/-- Every pixel after the draw (R111, R112): XOR with the sprite's bit there. -/
theorem pixel_drawRows (cx cy : Nat) (rows : List Byte) (acc : Framebuffer × Bool) (r : Fin 32) (c : Fin 64) :
    pixel (drawRows cx cy rows acc).1 r c = (pixel acc.1 r c ^^ spriteOn cx cy rows r c) := by
  induction rows generalizing cy acc with
  | nil => simp [drawRows, spriteOn]
  | cons row rows ih =>
    rw [drawRows, ih, drawRow, (drawColumns cx cy row acc 8).1, spriteOn_cons, Bool.xor_assoc]
    congr 1
    by_cases h : r.val = cy
    · rw [spriteOn_below cx (cy + 1) rows r c (by omega)]
      simp
    · simp [h]

/-- The flag after the draw (R111): set before, or a sprite bit on a pixel that was on. -/
theorem flag_drawRows (cx cy : Nat) (rows : List Byte) (acc : Framebuffer × Bool) :
    (drawRows cx cy rows acc).2 = true ↔
      acc.2 = true ∨ ∃ (r : Fin 32) (c : Fin 64), spriteOn cx cy rows r c = true ∧ pixel acc.1 r c = true := by
  induction rows generalizing cy acc with
  | nil => simp [drawRows, spriteOn]
  | cons row rows ih =>
    rw [drawRows, ih, drawRow, (drawColumns cx cy row acc 8).2]
    constructor
    · rintro ((h | ⟨r, c, h1, h2, h3, h4, h5⟩) | ⟨r, c, h1, h2⟩)
      · exact .inl h
      · exact .inr ⟨r, c, by rw [spriteOn_cons]; simp [h1, h2, h3, h4], h5⟩
      · have hr : r.val ≠ cy := by
          intro e
          rw [spriteOn_below cx (cy + 1) rows r c (by omega)] at h1
          exact Bool.noConfusion h1
        rw [(drawColumns cx cy row acc 8).1] at h2
        exact .inr ⟨r, c, by rw [spriteOn_cons, h1]; simp, by simpa [hr] using h2⟩
    · rintro (h | ⟨r, c, h1, h2⟩)
      · exact .inl (.inl h)
      · rw [spriteOn_cons] at h1
        by_cases hr : r.val = cy
        · rw [spriteOn_below cx (cy + 1) rows r c (by omega)] at h1
          simp only [Bool.or_false, Bool.and_eq_true, decide_eq_true_eq] at h1
          exact .inl (.inr ⟨r, c, h1.1.1, h1.1.2.1, h1.1.2.2, h1.2, h2⟩)
        · refine .inr ⟨r, c, by simpa [hr] using h1, ?_⟩
          rw [(drawColumns cx cy row acc 8).1]
          simpa [hr] using h2

@[simp] theorem pixel_clearFramebuffer (r : Fin 32) (c : Fin 64) : pixel clearFramebuffer r c = false := by
  simp [pixel, clearFramebuffer, Vector.get_eq_getElem]

/-- Framebuffers with the same pixels are the same. -/
theorem framebuffer_ext {f g : Framebuffer} (h : ∀ r c, pixel f r c = pixel g r c) : f = g := by
  apply Vector.ext
  intro r hr
  apply Vector.ext
  intro c hc
  simpa [pixel, Vector.get_eq_getElem] using h ⟨r, hr⟩ ⟨c, hc⟩

end Sys2Proof.Machine
end

