-- ==== Sys2Proof/Laws/Keypad.lean ====
section
/-! SUPPORT. The least qualifying key, and the key index. -/

namespace Sys2Proof.Machine

/-- The first index that a test accepts is accepted, and no smaller one is. -/
theorem find_finRange_eq_some {n : Nat} {p : Fin n → Bool} {k : Fin n} :
    (List.finRange n).find? p = some k ↔ p k = true ∧ ∀ j, j < k → p j = false := by
  induction n with
  | zero => exact k.elim0
  | succ n ih =>
    rw [List.finRange_succ, List.find?_cons]
    cases h0 : p 0 with
    | true =>
      simp only [Option.some.injEq]
      constructor
      · rintro rfl
        exact ⟨h0, fun j hj => absurd hj (Nat.not_lt_zero _)⟩
      · rintro ⟨-, h⟩
        rcases Fin.eq_zero_or_eq_succ k with rfl | ⟨j, rfl⟩
        · rfl
        · exact absurd (h 0 (Fin.succ_pos j)) (by simp [h0])
    | false =>
      rw [List.find?_map]
      simp only [Option.map_eq_some_iff]
      constructor
      · rintro ⟨j, hj, rfl⟩
        have := (ih (p := p ∘ Fin.succ)).mp hj
        refine ⟨this.1, fun i hi => ?_⟩
        rcases Fin.eq_zero_or_eq_succ i with rfl | ⟨i, rfl⟩
        · exact h0
        · exact this.2 i (Fin.succ_lt_succ_iff.mp hi)
      · rintro ⟨hk, h⟩
        rcases Fin.eq_zero_or_eq_succ k with rfl | ⟨j, rfl⟩
        · exact absurd hk (by simp [h0])
        · exact ⟨j, (ih (p := p ∘ Fin.succ)).mpr ⟨hk, fun i hi => h i.succ (Fin.succ_lt_succ_iff.mpr hi)⟩, rfl⟩

/-- `leastKey` answers the least key that is down. -/
theorem leastKey_eq_some {keys : Keys} {k : Fin 16} :
    leastKey keys = some k ↔ keys.get k = true ∧ ∀ j, j < k → keys.get j = false :=
  find_finRange_eq_some

/-- `leastKey` answers none exactly when every key is up. -/
theorem leastKey_eq_none {keys : Keys} : leastKey keys = none ↔ ∀ k, keys.get k = false := by
  simp [leastKey, List.find?_eq_none]

/-- `leastNewKey` answers the least key that is down and was up. -/
theorem leastNewKey_eq_some {keys prev : Keys} {k : Fin 16} :
    leastNewKey keys prev = some k ↔
      (keys.get k && !prev.get k) = true ∧ ∀ j, j < k → (keys.get j && !prev.get j) = false :=
  find_finRange_eq_some

/-- `leastNewKey` answers none exactly when no key is newly down. -/
theorem leastNewKey_eq_none {keys prev : Keys} :
    leastNewKey keys prev = none ↔ ∀ k, (keys.get k && !prev.get k) = false := by
  simp [leastNewKey, List.find?_eq_none]

/-- A key number up to 0xF is its own index. -/
theorem keyIndex_eq_some {v : Byte} (h : v.toNat < 16) : keyIndex v = some ⟨v.toNat, h⟩ := by
  simp only [keyIndex, h, dif_pos]

/-- A key number above 0xF is no index. -/
theorem keyIndex_eq_none {v : Byte} (h : 15 < v.toNat) : keyIndex v = none := by
  have : ¬ v.toNat < 16 := by omega
  simp only [keyIndex, this, dif_neg, not_false_eq_true]

@[simp] theorem keyNumber_toNat (k : Fin 16) : (keyNumber k).toNat = k.val := by
  have := k.isLt
  simp only [keyNumber, BitVec.toNat_ofNat]
  omega

end Sys2Proof.Machine
end

