-- ==== Sys2Proof/Laws/Memory.lean ====
section
/-! SUPPORT. Memory: a read after a write to the same address gives the byte written, a write leaves every other address as it
was, and every operation keeps the canonical form. -/

namespace Sys2Proof.Machine

theorem Memory.read_erase_ne (m : Memory) {a c : Nat} (h : c ≠ a) : (m.erase a).read c = m.read c := by
  induction m with
  | nil => rfl
  | cons d m ih =>
    by_cases hd : d.1 = a
    · have : c ≠ d.1 := fun e => h (e.trans hd)
      simpa [Memory.erase, hd, Memory.read, h] using ih
    · have : Memory.erase (d :: m) a = d :: Memory.erase m a := by simp [Memory.erase, hd]
      simp only [this, Memory.read, ih]

theorem Memory.not_mem_erase (m : Memory) (a : Nat) : ∀ c ∈ m.erase a, c.1 ≠ a := by
  intro c hc
  simpa using (List.mem_filter.mp hc).2

theorem Memory.read_of_not_mem (m : Memory) (a : Nat) (h : ∀ c ∈ m, c.1 ≠ a) : m.read a = Memory.unlisted a := by
  induction m with
  | nil => rfl
  | cons d m ih =>
    have hd : a ≠ d.1 := fun e => h d (List.mem_cons_self ..) e.symm
    simp only [Memory.read, hd, if_false]
    exact ih fun c hc => h c (List.mem_cons_of_mem _ hc)

theorem Memory.read_insert (m : Memory) (a : Nat) (b : Byte) (h : ∀ c ∈ m, c.1 ≠ a) (c : Nat) :
    (Memory.insert a b m).read c = if c = a then b else m.read c := by
  induction m with
  | nil => simp [Memory.insert, Memory.read]
  | cons d m ih =>
    have hd : d.1 ≠ a := h d (List.mem_cons_self ..)
    have ih := ih fun c hc => h c (List.mem_cons_of_mem _ hc)
    simp only [Memory.insert]
    split
    · simp [Memory.read]
    · simp only [Memory.read, ih]
      by_cases hc : c = d.1
      · have : c ≠ a := fun e => hd (hc ▸ e)
        simp [hc, hd]
      · simp [hc]

/-- Read after write, at every address. -/
@[simp] theorem Memory.read_write (m : Memory) (a : Nat) (b : Byte) (c : Nat) :
    (m.write a b).read c = if c = a then b else m.read c := by
  unfold Memory.write
  split
  · rename_i hb
    by_cases hc : c = a
    · subst hc
      simp [Memory.read_of_not_mem _ _ (Memory.not_mem_erase m c), hb]
    · simp [hc, Memory.read_erase_ne m hc]
  · rw [Memory.read_insert _ _ _ (Memory.not_mem_erase m a)]
    by_cases hc : c = a
    · simp [hc]
    · simp [hc, Memory.read_erase_ne m hc]

/-- Every address after a write of consecutive bytes. -/
theorem Memory.read_writeBytes (m : Memory) (a : Nat) (bytes : List Byte) (c : Nat) :
    (m.writeBytes a bytes).read c = if a ≤ c then bytes[c - a]?.getD (m.read c) else m.read c := by
  induction bytes generalizing m a with
  | nil => simp [Memory.writeBytes]
  | cons b bs ih =>
    rw [Memory.writeBytes, ih, Memory.read_write]
    rcases Nat.lt_trichotomy c a with h | h | h
    · have h1 : ¬ a + 1 ≤ c := by omega
      have h2 : ¬ a ≤ c := by omega
      have h3 : c ≠ a := by omega
      simp [h1, h2, h3]
    · subst h
      simp
    · have h1 : a + 1 ≤ c := by omega
      have h2 : a ≤ c := by omega
      have h3 : c ≠ a := by omega
      obtain ⟨k, rfl⟩ : ∃ k, c = a + 1 + k := ⟨c - (a + 1), by omega⟩
      have h4 : a + 1 + k - a = k + 1 := by omega
      have h5 : a + 1 + k - (a + 1) = k := by omega
      simp [h3, h4, h5, h2]

/-- Addresses below or past the bytes written keep their values. -/
theorem Memory.read_writeBytes_outside (m : Memory) (a : Nat) (bytes : List Byte) (c : Nat)
    (h : c < a ∨ a + bytes.length ≤ c) : (m.writeBytes a bytes).read c = m.read c := by
  rw [Memory.read_writeBytes]
  split
  · rw [List.getElem?_eq_none (by omega)]
    rfl
  · rfl

@[simp] theorem Memory.readBytes_length (m : Memory) (a n : Nat) : (m.readBytes a n).length = n := by
  simp [Memory.readBytes]

theorem Memory.readBytes_getElem? (m : Memory) (a n k : Nat) (h : k < n) :
    (m.readBytes a n)[k]? = some (m.read (a + k)) := by
  simp [Memory.readBytes, h]

/-! ### The canonical form -/

theorem Memory.wf_nil : Memory.wf [] := ⟨List.Pairwise.nil, by simp⟩

theorem Memory.wf_erase {m : Memory} (h : m.wf) (a : Nat) : (m.erase a).wf :=
  ⟨h.1.filter _, fun c hc => h.2 c (List.mem_of_mem_filter hc)⟩

theorem Memory.mem_insert {m : Memory} {a : Nat} {b : Byte} {c : Host.Cell} :
    c ∈ Memory.insert a b m ↔ c = (a, b) ∨ c ∈ m := by
  induction m with
  | nil => simp [Memory.insert]
  | cons d m ih =>
    simp only [Memory.insert]
    split
    · simp
    · simp only [List.mem_cons, ih]
      tauto

theorem Memory.pairwise_insert {m : Memory} {a : Nat} {b : Byte} (h : m.Pairwise fun c d => c.1 < d.1)
    (ha : ∀ c ∈ m, c.1 ≠ a) : (Memory.insert a b m).Pairwise fun c d => c.1 < d.1 := by
  induction m with
  | nil => simp [Memory.insert]
  | cons d m ih =>
    have hd := List.pairwise_cons.mp h
    simp only [Memory.insert]
    split
    · rename_i hlt
      refine List.pairwise_cons.mpr ⟨fun c hc => ?_, h⟩
      rcases List.mem_cons.mp hc with rfl | hc
      · exact hlt
      · exact Nat.lt_trans hlt (hd.1 c hc)
    · rename_i hge
      have hne : d.1 ≠ a := ha d (List.mem_cons_self ..)
      refine List.pairwise_cons.mpr ⟨fun c hc => ?_, ih hd.2 fun c hc => ha c (List.mem_cons_of_mem _ hc)⟩
      rcases Memory.mem_insert.mp hc with rfl | hc
      · show d.1 < a
        omega
      · exact hd.1 c hc

/-- A write inside the address space keeps the canonical form. -/
theorem Memory.wf_write {m : Memory} (h : m.wf) {a : Nat} (ha : a < 0x1000) (b : Byte) : (m.write a b).wf := by
  unfold Memory.write
  split
  · exact Memory.wf_erase h a
  · rename_i hb
    refine ⟨Memory.pairwise_insert (Memory.wf_erase h a).1 (Memory.not_mem_erase m a), fun c hc => ?_⟩
    rcases Memory.mem_insert.mp hc with rfl | hc
    · exact ⟨ha, hb⟩
    · exact (Memory.wf_erase h a).2 c hc

/-- Consecutive writes inside the address space keep the canonical form. -/
theorem Memory.wf_writeBytes {m : Memory} (h : m.wf) {a : Nat} (bytes : List Byte) (ha : a + bytes.length ≤ 0x1000) :
    (m.writeBytes a bytes).wf := by
  induction bytes generalizing m a with
  | nil => exact h
  | cons b bs ih =>
    have hl : (b :: bs).length = bs.length + 1 := rfl
    exact ih (Memory.wf_write h (by omega) b) (by omega)

/-- In canonical form, memories that read the same at every address are equal data. -/
theorem Memory.ext_read {m n : Memory} (hm : m.wf) (hn : n.wf) (h : ∀ a, m.read a = n.read a) : m = n := by
  induction m generalizing n with
  | nil =>
    cases n with
    | nil => rfl
    | cons d n =>
      have := h d.1
      simp only [Memory.read, if_true] at this
      exact absurd this.symm (hn.2 d (List.mem_cons_self ..)).2
  | cons c m ih =>
    have hc := List.pairwise_cons.mp hm.1
    cases n with
    | nil =>
      have := h c.1
      simp only [Memory.read, if_true] at this
      exact absurd this (hm.2 c (List.mem_cons_self ..)).2
    | cons d n =>
      have hd := List.pairwise_cons.mp hn.1
      have below : ∀ {k : Nat} {l : Memory}, (∀ e ∈ l, k < e.1) → l.read k = Memory.unlisted k := fun hl =>
        Memory.read_of_not_mem _ _ fun e he => Nat.ne_of_gt (hl e he)
      have key : c.1 = d.1 := by
        rcases Nat.lt_trichotomy c.1 d.1 with hlt | heq | hgt
        · have := h c.1
          rw [below (l := d :: n) (fun e he => ?_)] at this
          · simp only [Memory.read, if_true] at this
            exact absurd this (hm.2 c (List.mem_cons_self ..)).2
          · rcases List.mem_cons.mp he with rfl | he
            · exact hlt
            · exact Nat.lt_trans hlt (hd.1 e he)
        · exact heq
        · have := h d.1
          rw [below (l := c :: m) (fun e he => ?_)] at this
          · simp only [Memory.read, if_true] at this
            exact absurd this.symm (hn.2 d (List.mem_cons_self ..)).2
          · rcases List.mem_cons.mp he with rfl | he
            · exact hgt
            · exact Nat.lt_trans hgt (hc.1 e he)
      have hval : c.2 = d.2 := by simpa [Memory.read, key] using h c.1
      have hcd : c = d := Prod.ext key hval
      subst hcd
      congr 1
      refine ih ⟨hc.2, fun e he => hm.2 e (List.mem_cons_of_mem _ he)⟩
        ⟨hd.2, fun e he => hn.2 e (List.mem_cons_of_mem _ he)⟩ fun a => ?_
      by_cases ha : a = c.1
      · subst ha
        rw [below hc.1, below hd.1]
      · simpa [Memory.read, ha] using h a

end Sys2Proof.Machine
end

