-- ==== Sys2Proof/Laws/Operations.lean ====
section
/-! SUPPORT. The shared operations behind several meanings, each said once: when it raises, and what it answers otherwise. -/

namespace Sys2Proof.Machine

/-- A read inside memory answers its bytes (R36). -/
theorem State.memRead_eq_some (s : State) {a n : Nat} (h : a + n ≤ 0x1000) : s.memRead a n = some (s.mem.readBytes a n) :=
  if_pos h

/-- A read that leaves memory answers none (R36). -/
theorem State.memRead_eq_none (s : State) {a n : Nat} (h : 0x1000 < a + n) : s.memRead a n = none :=
  if_neg (Nat.not_le.mpr h)

/-- A write inside memory writes every byte (R37). -/
theorem State.memWrite_eq_some (s : State) {a : Nat} {bytes : List Byte} (h : a + bytes.length ≤ 0x1000) :
    s.memWrite a bytes = some (s.withMem (s.mem.writeBytes a bytes)) :=
  if_pos h

/-- A write that leaves memory writes nothing (R37). -/
theorem State.memWrite_eq_none (s : State) {a : Nat} {bytes : List Byte} (h : 0x1000 < a + bytes.length) :
    s.memWrite a bytes = none :=
  if_neg (Nat.not_le.mpr h)

/-- A store at I completes with every byte written, when all of them lie in memory. -/
theorem State.storeAtI_completes (s : State) {bytes : List Byte} (h : s.i.toNat + bytes.length ≤ 0x1000) :
    s.storeAtI bytes = (s.withMem (s.mem.writeBytes s.i.toNat bytes)).completed := by
  have := s.memWrite_eq_some (a := s.indexed 0) h
  simp only [State.storeAtI, this]
  rfl

/-- A store at I raises and writes nothing, when one of its bytes lies outside memory. -/
theorem State.storeAtI_raises (s : State) {bytes : List Byte} (h : 0x1000 < s.i.toNat + bytes.length) :
    s.storeAtI bytes = s.raise .memoryBounds := by
  have := s.memWrite_eq_none (a := s.indexed 0) h
  simp only [State.storeAtI, this]

/-- A skip on a key number in 0x0..0xF follows the level of that key. -/
theorem State.skipOnKey_completes (s : State) (x : RegIdx) (pressed : Bool) {k : Fin 16} (h : (s.reg x).toNat = k.val) :
    s.skipOnKey x pressed = (s.skipIf (s.keys.get k == pressed)).completed := by
  have hk : (s.reg x).toNat < 16 := h ▸ k.isLt
  have he : (⟨(s.reg x).toNat, hk⟩ : Fin 16) = k := Fin.ext h
  simp only [State.skipOnKey, keyIndex_eq_some hk, he]

/-- A skip on a key number above 0xF raises. -/
theorem State.skipOnKey_raises (s : State) (x : RegIdx) (pressed : Bool) (h : 0xF < (s.reg x).toNat) :
    s.skipOnKey x pressed = s.raise .keyIndex := by
  simp only [State.skipOnKey, keyIndex_eq_none h]

/-- The sprite rows are the n bytes at I, when there are none or all lie in memory. -/
theorem State.spriteRows_eq_some (s : State) {n : Fin 16} (h : n.val = 0 ∨ s.i.toNat + n.val ≤ 0x1000) :
    s.spriteRows n = some (s.mem.readBytes s.i.toNat n.val) := by
  unfold State.spriteRows
  split
  · rename_i h0
    rw [h0]
    rfl
  · rename_i h0
    exact s.memRead_eq_some (h.resolve_left h0)

/-- The sprite rows cannot be read, when there are some and one lies outside memory. -/
theorem State.spriteRows_eq_none (s : State) {n : Fin 16} (h0 : n.val ≠ 0) (h : 0x1000 < s.i.toNat + n.val) :
    s.spriteRows n = none := by
  rw [State.spriteRows, if_neg h0]
  exact s.memRead_eq_none h

/-- Construction puts the core into the state after reset (R146) and keeps the model's record of errors (log 2). -/
@[simp] theorem State.construct_core (s : State) : s.construct.toCoreState = State.reset.toCoreState := rfl
@[simp] theorem State.construct_errorLog (s : State) : s.construct.errorLog = s.errorLog := rfl

end Sys2Proof.Machine
end

