-- ==== Sys2Proof/Laws/PerInstr.lean ====
section
/-! SUPPORT. One law per instruction: the encoder's word has the fixed bits that spec/opcode_table.json gives the row (its match
under its mask), a second transcription of the encodings beside the encoder's own. -/

namespace Sys2Proof

/-- The mask column of the opcode table: which bits of the row are fixed. -/
def Instr.tableMask : Instr → Word
  | .cls => 0xFFFF
  | .ret => 0xFFFF
  | .jp _ => 0xF000
  | .call _ => 0xF000
  | .seImm _ _ => 0xF000
  | .sneImm _ _ => 0xF000
  | .seReg _ _ => 0xF00F
  | .ldImm _ _ => 0xF000
  | .addImm _ _ => 0xF000
  | .ldReg _ _ => 0xF00F
  | .orReg _ _ => 0xF00F
  | .andReg _ _ => 0xF00F
  | .xorReg _ _ => 0xF00F
  | .addReg _ _ => 0xF00F
  | .subReg _ _ => 0xF00F
  | .shr _ _ => 0xF00F
  | .subnReg _ _ => 0xF00F
  | .shl _ _ => 0xF00F
  | .sneReg _ _ => 0xF00F
  | .ldI _ => 0xF000
  | .jpV0 _ => 0xF000
  | .rnd _ _ => 0xF000
  | .drw _ _ _ => 0xF000
  | .skp _ => 0xF0FF
  | .sknp _ => 0xF0FF
  | .ldVxDt _ => 0xF0FF
  | .ldVxK _ => 0xF0FF
  | .ldDtVx _ => 0xF0FF
  | .ldStVx _ => 0xF0FF
  | .addI _ => 0xF0FF
  | .ldF _ => 0xF0FF
  | .ldB _ => 0xF0FF
  | .ldMemVx _ => 0xF0FF
  | .ldVxMem _ => 0xF0FF

/-- The match column of the opcode table: the values of the fixed bits. -/
def Instr.tableMatch : Instr → Word
  | .cls => 0x00E0
  | .ret => 0x00EE
  | .jp _ => 0x1000
  | .call _ => 0x2000
  | .seImm _ _ => 0x3000
  | .sneImm _ _ => 0x4000
  | .seReg _ _ => 0x5000
  | .ldImm _ _ => 0x6000
  | .addImm _ _ => 0x7000
  | .ldReg _ _ => 0x8000
  | .orReg _ _ => 0x8001
  | .andReg _ _ => 0x8002
  | .xorReg _ _ => 0x8003
  | .addReg _ _ => 0x8004
  | .subReg _ _ => 0x8005
  | .shr _ _ => 0x8006
  | .subnReg _ _ => 0x8007
  | .shl _ _ => 0x800E
  | .sneReg _ _ => 0x9000
  | .ldI _ => 0xA000
  | .jpV0 _ => 0xB000
  | .rnd _ _ => 0xC000
  | .drw _ _ _ => 0xD000
  | .skp _ => 0xE09E
  | .sknp _ => 0xE0A1
  | .ldVxDt _ => 0xF007
  | .ldVxK _ => 0xF00A
  | .ldDtVx _ => 0xF015
  | .ldStVx _ => 0xF018
  | .addI _ => 0xF01E
  | .ldF _ => 0xF029
  | .ldB _ => 0xF033
  | .ldMemVx _ => 0xF055
  | .ldVxMem _ => 0xF065

theorem encAddr_class {c : Nat} (hc : c < 16) (nnn : Addr12) :
    encAddr c nnn &&& 0xF000 = BitVec.ofNat 16 (c * 4096) := by
  have := nnn.isLt
  rw [and_F000 _ c hc, toNat_encAddr hc]
  omega

theorem encRegImm_class {c : Nat} (hc : c < 16) (x : RegIdx) (kk : Byte) :
    encRegImm c x kk &&& 0xF000 = BitVec.ofNat 16 (c * 4096) := by
  have := x.isLt
  have := kk.isLt
  rw [and_F000 _ c hc, toNat_encRegImm hc]
  omega

theorem encRegReg_class {c n : Nat} (hc : c < 16) (hn : n < 16) (x y : RegIdx) :
    encRegReg c x y n &&& 0xF000 = BitVec.ofNat 16 (c * 4096) := by
  have := x.isLt
  have := y.isLt
  rw [and_F000 _ c hc, toNat_encRegReg hc hn]
  omega

theorem encRegReg_class_nibble {c n : Nat} (hc : c < 16) (hn : n < 16) (x y : RegIdx) :
    encRegReg c x y n &&& 0xF00F = BitVec.ofNat 16 (c * 4096 + n) := by
  have := x.isLt
  have := y.isLt
  rw [and_F00F _ c n hc hn, toNat_encRegReg hc hn]
  omega

theorem encRegImm_class_byte {c k : Nat} (hc : c < 16) (hk : k < 256) (x : RegIdx) :
    encRegImm c x (BitVec.ofNat 8 k) &&& 0xF0FF = BitVec.ofNat 16 (c * 4096 + k) := by
  have := x.isLt
  rw [and_F0FF _ c k hc hk, toNat_encRegImm hc, BitVec.toNat_ofNat]
  omega

end Sys2Proof

namespace Sys2Proof.Laws.TableMatch

/-- The word of an instruction matches its row of the opcode table. -/
def Statement (i : Instr) : Prop := encode i &&& i.tableMask = i.tableMatch

theorem cls : Statement .cls :=
  rfl

theorem ret : Statement .ret :=
  rfl

theorem jp (nnn : Addr12) : Statement (.jp nnn) :=
  encAddr_class (c := 0x1) (by decide) nnn

theorem call (nnn : Addr12) : Statement (.call nnn) :=
  encAddr_class (c := 0x2) (by decide) nnn

theorem seImm (x : RegIdx) (kk : Byte) : Statement (.seImm x kk) :=
  encRegImm_class (c := 0x3) (by decide) x kk

theorem sneImm (x : RegIdx) (kk : Byte) : Statement (.sneImm x kk) :=
  encRegImm_class (c := 0x4) (by decide) x kk

theorem seReg (x y : RegIdx) : Statement (.seReg x y) :=
  encRegReg_class_nibble (c := 0x5) (n := 0x0) (by decide) (by decide) x y

theorem ldImm (x : RegIdx) (kk : Byte) : Statement (.ldImm x kk) :=
  encRegImm_class (c := 0x6) (by decide) x kk

theorem addImm (x : RegIdx) (kk : Byte) : Statement (.addImm x kk) :=
  encRegImm_class (c := 0x7) (by decide) x kk

theorem ldReg (x y : RegIdx) : Statement (.ldReg x y) :=
  encRegReg_class_nibble (c := 0x8) (n := 0x0) (by decide) (by decide) x y

theorem orReg (x y : RegIdx) : Statement (.orReg x y) :=
  encRegReg_class_nibble (c := 0x8) (n := 0x1) (by decide) (by decide) x y

theorem andReg (x y : RegIdx) : Statement (.andReg x y) :=
  encRegReg_class_nibble (c := 0x8) (n := 0x2) (by decide) (by decide) x y

theorem xorReg (x y : RegIdx) : Statement (.xorReg x y) :=
  encRegReg_class_nibble (c := 0x8) (n := 0x3) (by decide) (by decide) x y

theorem addReg (x y : RegIdx) : Statement (.addReg x y) :=
  encRegReg_class_nibble (c := 0x8) (n := 0x4) (by decide) (by decide) x y

theorem subReg (x y : RegIdx) : Statement (.subReg x y) :=
  encRegReg_class_nibble (c := 0x8) (n := 0x5) (by decide) (by decide) x y

theorem shr (x y : RegIdx) : Statement (.shr x y) :=
  encRegReg_class_nibble (c := 0x8) (n := 0x6) (by decide) (by decide) x y

theorem subnReg (x y : RegIdx) : Statement (.subnReg x y) :=
  encRegReg_class_nibble (c := 0x8) (n := 0x7) (by decide) (by decide) x y

theorem shl (x y : RegIdx) : Statement (.shl x y) :=
  encRegReg_class_nibble (c := 0x8) (n := 0xE) (by decide) (by decide) x y

theorem sneReg (x y : RegIdx) : Statement (.sneReg x y) :=
  encRegReg_class_nibble (c := 0x9) (n := 0x0) (by decide) (by decide) x y

theorem ldI (nnn : Addr12) : Statement (.ldI nnn) :=
  encAddr_class (c := 0xA) (by decide) nnn

theorem jpV0 (nnn : Addr12) : Statement (.jpV0 nnn) :=
  encAddr_class (c := 0xB) (by decide) nnn

theorem rnd (x : RegIdx) (kk : Byte) : Statement (.rnd x kk) :=
  encRegImm_class (c := 0xC) (by decide) x kk

theorem drw (x y : RegIdx) (n : Fin 16) : Statement (.drw x y n) :=
  encRegReg_class (c := 0xD) (by decide) n.isLt x y

theorem skp (x : RegIdx) : Statement (.skp x) :=
  encRegImm_class_byte (c := 0xE) (k := 0x9E) (by decide) (by decide) x

theorem sknp (x : RegIdx) : Statement (.sknp x) :=
  encRegImm_class_byte (c := 0xE) (k := 0xA1) (by decide) (by decide) x

theorem ldVxDt (x : RegIdx) : Statement (.ldVxDt x) :=
  encRegImm_class_byte (c := 0xF) (k := 0x7) (by decide) (by decide) x

theorem ldVxK (x : RegIdx) : Statement (.ldVxK x) :=
  encRegImm_class_byte (c := 0xF) (k := 0xA) (by decide) (by decide) x

theorem ldDtVx (x : RegIdx) : Statement (.ldDtVx x) :=
  encRegImm_class_byte (c := 0xF) (k := 0x15) (by decide) (by decide) x

theorem ldStVx (x : RegIdx) : Statement (.ldStVx x) :=
  encRegImm_class_byte (c := 0xF) (k := 0x18) (by decide) (by decide) x

theorem addI (x : RegIdx) : Statement (.addI x) :=
  encRegImm_class_byte (c := 0xF) (k := 0x1E) (by decide) (by decide) x

theorem ldF (x : RegIdx) : Statement (.ldF x) :=
  encRegImm_class_byte (c := 0xF) (k := 0x29) (by decide) (by decide) x

theorem ldB (x : RegIdx) : Statement (.ldB x) :=
  encRegImm_class_byte (c := 0xF) (k := 0x33) (by decide) (by decide) x

theorem ldMemVx (x : RegIdx) : Statement (.ldMemVx x) :=
  encRegImm_class_byte (c := 0xF) (k := 0x55) (by decide) (by decide) x

theorem ldVxMem (x : RegIdx) : Statement (.ldVxMem x) :=
  encRegImm_class_byte (c := 0xF) (k := 0x65) (by decide) (by decide) x

end Sys2Proof.Laws.TableMatch
end

