-- ==== Sys2Proof/Laws/Step.lean ====
section
/-! SUPPORT. What one cycle does, said once: the waiting step, a fetch outside memory, a word that no row matches, or the
execute phase of the decoded instruction on the post-fetch state. -/

namespace Sys2Proof.Machine

/-- The bytes a fetch reads decode as the word at PC. -/
theorem State.decode_fetched (s : State) :
    decode [s.mem.read s.pc.toNat, s.mem.read (s.pc.toNat + 1)] =
      match decodeWord s.wordAtPc with
      | some i => .instr i []
      | none   => .reject (.unimplemented s.wordAtPc) := by
  cases h : decodeWord s.wordAtPc <;> simp only [decode] <;> simp only [State.wordAtPc] at h <;> simp only [h, State.wordAtPc]

/-- With a wait pending, a cycle is the waiting step. -/
theorem State.cycle_waiting {s : State} {w : KeyWait} (h : s.wait = some w) :
    s.cycle = .next (s.waitStep Config.keywaitMode w) := by
  simp only [State.cycle, h]

/-- A fetch outside memory raises in the unchanged state. -/
theorem State.cycle_fetch_fails {s : State} (h : s.wait = none) (hp : 0xFFF < s.pc.toNat + 1) :
    s.cycle = .next (s.raise .memoryBounds) := by
  simp only [State.cycle, h, State.fetch_eq_none s hp]

/-- A word that decodes is executed on the post-fetch state. -/
theorem State.cycle_executes {s : State} {w : Word} {i : Instr} (h : s.Fetches w) (hd : decodeWord w = some i) :
    s.cycle = exec i (s.withPc (s.pc + 2)) := by
  obtain ⟨h1, h2, rfl⟩ := h
  simp only [State.cycle, h1, State.fetch_eq_some s h2, State.decode_fetched, hd]

/-- A word that does not decode raises UnimplementedOpcode in the post-fetch state. -/
theorem State.cycle_rejects {s : State} {w : Word} (h : s.Fetches w) (hd : decodeWord w = none) :
    s.cycle = .next ((s.withPc (s.pc + 2)).raise .unimplementedOpcode) := by
  obtain ⟨h1, h2, rfl⟩ := h
  simp only [State.cycle, h1, State.fetch_eq_some s h2, State.decode_fetched, hd]

/-- Everything a cycle can do. -/
theorem State.cycle_cases (s : State) :
    (∃ w, s.wait = some w ∧ s.cycle = .next (s.waitStep Config.keywaitMode w)) ∨
    (s.wait = none ∧ 0xFFF < s.pc.toNat + 1 ∧ s.cycle = .next (s.raise .memoryBounds)) ∨
    (s.Fetches s.wordAtPc ∧ decodeWord s.wordAtPc = none ∧
      s.cycle = .next ((s.withPc (s.pc + 2)).raise .unimplementedOpcode)) ∨
    (∃ i, s.Fetches s.wordAtPc ∧ decodeWord s.wordAtPc = some i ∧ s.cycle = exec i (s.withPc (s.pc + 2))) := by
  cases hw : s.wait with
  | some w => exact .inl ⟨w, rfl, State.cycle_waiting hw⟩
  | none =>
    by_cases hp : 0xFFF < s.pc.toNat + 1
    · exact .inr (.inl ⟨rfl, hp, State.cycle_fetch_fails hw hp⟩)
    · have hf : s.Fetches s.wordAtPc := ⟨hw, by omega, rfl⟩
      cases hd : decodeWord s.wordAtPc with
      | none => exact .inr (.inr (.inl ⟨hf, rfl, State.cycle_rejects hf hd⟩))
      | some i => exact .inr (.inr (.inr ⟨i, hf, rfl, State.cycle_executes hf hd⟩))

/-- Sampling the inputs changes nothing a fetch reads. -/
theorem State.fetches_sample {s : State} {w : Word} (keys : Keys) (rand8 : Byte) :
    (s.sample keys rand8).Fetches w ↔ s.Fetches w := Iff.rfl

end Sys2Proof.Machine
end

