-- ==== Sys2Proof/Tests/Slice0.lean ====
section
/-! SUPPORT. Small tests. Expected results come from the spec: the opcode table, the seven sets of R61, and the vectors of
95_test_vectors.md, whose number stands in each comment. The second half holds the witnesses: for every statement with
hypotheses, a state and operands that meet them, at the boundary values of each clause. -/

namespace Sys2Proof.Tests

open Sys2Proof.Machine

/-! ## Helpers -/

def noKeys : Keys := Vector.replicate 16 false

/-- The keys of the list are down, every other key is up. -/
def keysDown (ks : List (Fin 16)) : Keys := Vector.ofFn fun k => ks.contains k

/-- The state after construction with some registers set. -/
def withRegs (l : List (RegIdx × Byte)) : State := l.foldl (fun s p => s.setReg p.1 p.2) State.reset

/-- Bytes placed in memory. -/
def bytesAt (a : Nat) (bytes : List Byte) (s : State) : State := s.withMem (s.mem.writeBytes a bytes)

/-- The state after a step that executes the word, with the given keys down and 0xA7 on offer. -/
def runKeys (ks : List (Fin 16)) (w : Word) (s : State) : State := s.after (stepWith (keysDown ks) 0xA7 (s.placeWord w))

def runWord (w : Word) (s : State) : State := runKeys [] w s

/-- One step with every key up and 0xA7 on offer. -/
def stepOnce (s : State) : State := s.after (stepWith noKeys 0xA7 s)

/-- One pixel on. -/
def pixelOn (py : Fin 32) (px : Fin 64) (s : State) : State := s.withFb (s.fb.set py.val ((s.fb.get py).set px.val true))

/-! ## Words that are not well formed: one of each set of R61 and its implemented neighbour -/

theorem test_wellFormed_class0 : wellFormedClass0 0x01E0 = false ∧ wellFormedClass0 0x00E0 = true := by decide
theorem test_wellFormed_class5 : wellFormedClass5 0x5121 = false ∧ wellFormedClass5 0x5120 = true := by decide
theorem test_wellFormed_class8 : wellFormedClass8 0x8128 = false ∧ wellFormedClass8 0x8127 = true := by decide
theorem test_wellFormed_class9 : wellFormedClass9 0x912F = false ∧ wellFormedClass9 0x9120 = true := by decide
theorem test_wellFormed_classB : wellFormedClassB 0xB000 = false ∧ wellFormedClassB 0xA000 = true := by decide
theorem test_wellFormed_classE : wellFormedClassE 0xE1A2 = false ∧ wellFormedClassE 0xE1A1 = true := by decide
theorem test_wellFormed_classF : wellFormedClassF 0xF175 = false ∧ wellFormedClassF 0xF165 = true := by decide

/-- An ill-formed word of each set is refused by the whole check, and the decoder answers none or `Bnnn`. -/
theorem test_illFormed_refused :
    [0x0000, 0x5001, 0x8008, 0x9001, 0xB123, 0xE09F, 0xF066].map wellFormedWord = List.replicate 7 false ∧
    [0x0000, 0x5001, 0x8008, 0x9001, 0xB123, 0xE09F, 0xF066].map decodeWord =
      [none, none, none, none, some (.jpV0 0x123), none, none] := by decide

/-- The operation each word names is listed as implemented, `Bnnn` is not (R1). -/
theorem test_implemented : Instr.implemented .cls = true ∧ Instr.implemented (.jpV0 0) = false := by decide

/-! ## Decoding: every constructor by a word written out from the pattern column of R59 -/

theorem test_decode_control :
    decodeTableWord 16 0x00E0 = some .cls ∧ decodeTableWord 16 0x00EE = some .ret ∧
    decodeTableWord 16 0x1ABC = some (.jp 0xABC) ∧ decodeTableWord 16 0x2123 = some (.call 0x123) ∧
    decodeTableWord 16 0x37F0 = some (.seImm 7 0xF0) ∧ decodeTableWord 16 0x480F = some (.sneImm 8 0x0F) ∧
    decodeTableWord 16 0x5AB0 = some (.seReg 0xA 0xB) ∧ decodeTableWord 16 0x9CD0 = some (.sneReg 0xC 0xD) ∧
    decodeTableWord 16 0xBFED = some (.jpV0 0xFED) := by decide

theorem test_decode_alu :
    decodeTableWord 16 0x6A42 = some (.ldImm 0xA 0x42) ∧ decodeTableWord 16 0x73FE = some (.addImm 3 0xFE) ∧
    decodeTableWord 16 0x8120 = some (.ldReg 1 2) ∧ decodeTableWord 16 0x8341 = some (.orReg 3 4) ∧
    decodeTableWord 16 0x8562 = some (.andReg 5 6) ∧ decodeTableWord 16 0x8783 = some (.xorReg 7 8) ∧
    decodeTableWord 16 0x89A4 = some (.addReg 9 0xA) ∧ decodeTableWord 16 0x8BC5 = some (.subReg 0xB 0xC) ∧
    decodeTableWord 16 0x8DE6 = some (.shr 0xD 0xE) ∧ decodeTableWord 16 0x8F07 = some (.subnReg 0xF 0) ∧
    decodeTableWord 16 0x812E = some (.shl 1 2) ∧ decodeTableWord 16 0xC30F = some (.rnd 3 0x0F) := by decide

theorem test_decode_index_display_keypad :
    decodeTableWord 16 0xA2F0 = some (.ldI 0x2F0) ∧ decodeTableWord 16 0xD12F = some (.drw 1 2 0xF) ∧
    decodeTableWord 16 0xE39E = some (.skp 3) ∧ decodeTableWord 16 0xE4A1 = some (.sknp 4) ∧
    decodeTableWord 16 0xF507 = some (.ldVxDt 5) ∧ decodeTableWord 16 0xF60A = some (.ldVxK 6) ∧
    decodeTableWord 16 0xF715 = some (.ldDtVx 7) ∧ decodeTableWord 16 0xF818 = some (.ldStVx 8) ∧
    decodeTableWord 16 0xF91E = some (.addI 9) ∧ decodeTableWord 16 0xFA29 = some (.ldF 0xA) ∧
    decodeTableWord 16 0xFB33 = some (.ldB 0xB) ∧ decodeTableWord 16 0xFC55 = some (.ldMemVx 0xC) ∧
    decodeTableWord 16 0xFD65 = some (.ldVxMem 0xD) := by decide

/-- Big-endian: the first byte is bits 15..8 (R38), and what follows the two bytes is left. -/
theorem test_decode_bytes : decode [0xA2, 0xF0, 0x12] = .instr (.ldI 0x2F0) [0x12] ∧ decode [0xA2] = .reject .truncated ∧
    decode [0x51, 0x21] = .reject (.unimplemented 0x5121) := by decide

/-- The encoder on the example words of R59's formats. -/
theorem test_encode : encode (.drw 1 2 0xF) = 0xD12F ∧ encode (.shl 1 2) = 0x812E ∧ encode (.call 0x123) = 0x2123 ∧
    encode (.ldVxMem 0xD) = 0xFD65 := by decide

/-! ## The step -/

/-- F1 and F2: the last fetchable address, then a fetch outside memory that changes nothing. -/
theorem test_step_last_word :
    let s := stepOnce (bytesAt 0xFFE [0x60, 0x01] (State.reset.withPc 0xFFE))
    s.reg 0 = 0x01 ∧ s.pc = 0x1000 ∧ s.outcome = some .completed ∧
    (stepOnce s).pc = 0x1000 ∧ (stepOnce s).outcome = some (.error .memoryBounds) := by decide

/-- F4: an odd PC fetches the straddling word 0x3456. -/
theorem test_step_odd_pc :
    let s := stepOnce (bytesAt 0x200 [0x12, 0x34, 0x56, 0x78] (State.reset.withPc 0x201))
    s.pc = 0x203 ∧ s.outcome = some .completed := by decide

/-- F5 and F11: the word 0x0000 raises and commits only the fetch; the next step goes on from there. -/
theorem test_step_unimplemented :
    (stepOnce State.reset).pc = 0x202 ∧ (stepOnce State.reset).outcome = some (.error .unimplementedOpcode) ∧
    (stepOnce (stepOnce State.reset)).pc = 0x204 := by decide

/-- The host's two questions: the table word decodes, and the very next step fetches it. -/
theorem test_withFetchWord :
    (State.reset.withFetchWord 16 0x6A42).wordAtPc = 0x6A42 ∧ ((State.reset.withPc 0xFFF).withFetchWord 16 0x00E0).pc = 0x200 := by
  decide

/-! ## Control transfer -/

/-- C3 and C6. -/
theorem test_ret_underflow : (runWord 0x00EE State.reset).outcome = some (.error .stackUnderflow) ∧
    (runWord 0x00EE State.reset).pc = 0x202 ∧ (runWord 0x00EE State.reset).sp = 0 := by decide
theorem test_ret_pops :
    let s := runWord 0x00EE ((State.reset.withSp 2).withStack ((State.reset.stack.set 0 0x0234).set 1 0x0456))
    s.sp = 1 ∧ s.pc = 0x456 ∧ s.stack.get 1 = 0x0456 := by decide

/-- C1 and C2. -/
theorem test_jp : (runWord 0x1FFF State.reset).pc = 0xFFF ∧ (runWord 0x1203 State.reset).pc = 0x203 := by decide

/-- C5 and C4. -/
theorem test_call_last_slot :
    let s := runWord 0x2400 ((State.reset.withSp 15).withPc 0x210)
    s.stack.get 15 = 0x0212 ∧ s.sp = 16 ∧ s.pc = 0x400 ∧ s.outcome = some .completed := by decide
theorem test_call_overflow :
    let s := runWord 0x2400 ((State.reset.withSp 16).withPc 0x210)
    s.outcome = some (.error .stackOverflow) ∧ s.sp = 16 ∧ s.pc = 0x212 ∧ s.stack = State.reset.stack := by decide

/-- C10, C8. -/
theorem test_seImm : (runWord 0x3F01 (withRegs [(0xF, 0x01)])).pc = 0x204 ∧
    (runWord 0x3000 (State.reset.withPc 0xFFE)).pc = 0x1002 := by decide
/-- C9, and the skip when they differ. -/
theorem test_sneImm : (runWord 0x4310 (withRegs [(3, 0x10)])).pc = 0x202 ∧ (runWord 0x4310 State.reset).pc = 0x204 := by decide
/-- C11. -/
theorem test_seReg : (runWord 0x5110 (withRegs [(1, 0x07)])).pc = 0x204 := by decide
/-- C12, C13. -/
theorem test_sneReg : (runWord 0x9110 (withRegs [(1, 0x07)])).pc = 0x202 ∧
    (runWord 0x9121 State.reset).outcome = some (.error .unimplementedOpcode) := by decide
/-- C14. -/
theorem test_jpV0 : (runWord 0xB300 (withRegs [(0, 0x05)])).pc = 0x202 ∧
    (runWord 0xB300 (withRegs [(0, 0x05)])).outcome = some (.error .unimplementedOpcode) := by decide

/-! ## Register loads and ALU -/

/-- S1. -/
theorem test_ldImm : (runWord 0x6A42 State.reset).reg 0xA = 0x42 ∧ (runWord 0x6A42 State.reset).pc = 0x202 := by decide
/-- S2, A1. -/
theorem test_addImm_wraps : let s := runWord 0x7302 (withRegs [(3, 0xFF), (0xF, 0x55)])
    s.reg 3 = 0x01 ∧ s.reg 0xF = 0x55 := by decide
theorem test_addImm_vf : (runWord 0x7FFF (withRegs [(0xF, 0x01)])).reg 0xF = 0x00 := by decide
/-- P3, step 5. -/
theorem test_ldReg : (runWord 0x82F0 (withRegs [(2, 0x99), (0xF, 0x01)])).reg 2 = 0x01 := by decide
/-- A3. -/
theorem test_or : let s := runWord 0x8121 (withRegs [(1, 0xF0), (2, 0x0F), (0xF, 0x77)])
    s.reg 1 = 0xFF ∧ s.reg 0xF = 0x77 := by decide
/-- A4. -/
theorem test_and : let s := runWord 0x8122 (withRegs [(1, 0xF0), (2, 0x3C), (0xF, 0x01)])
    s.reg 1 = 0x30 ∧ s.reg 0xF = 0x01 := by decide
/-- A5. -/
theorem test_xor : (runWord 0x8113 (withRegs [(1, 0x5A)])).reg 1 = 0x00 := by decide
/-- A6, A9. -/
theorem test_add_carry : let s := runWord 0x8124 (withRegs [(1, 0xFF), (2, 0xFF)]); s.reg 1 = 0xFE ∧ s.reg 0xF = 0x01 := by
  decide
theorem test_add_into_vf : (runWord 0x8F14 (withRegs [(0xF, 0xFF), (1, 0x01)])).reg 0xF = 0x01 := by decide
/-- A12, S11. -/
theorem test_sub_borrow : let s := runWord 0x8125 (withRegs [(1, 0x03), (2, 0x05)]); s.reg 1 = 0xFE ∧ s.reg 0xF = 0x00 := by
  decide
theorem test_sub_equal : let s := runWord 0x8125 (withRegs [(1, 0x40), (2, 0x40)]); s.reg 1 = 0x00 ∧ s.reg 0xF = 0x00 := by
  decide
/-- A19, A20. -/
theorem test_shr : let s := runWord 0x8126 (withRegs [(1, 0x03), (2, 0xAA)])
    s.reg 1 = 0x01 ∧ s.reg 2 = 0xAA ∧ s.reg 0xF = 0x01 := by decide
theorem test_shr_vf : (runWord 0x8F06 (withRegs [(0xF, 0x03)])).reg 0xF = 0x01 := by decide
/-- A21, A22. -/
theorem test_subn : let s := runWord 0x8127 (withRegs [(1, 0x03), (2, 0x05)]); s.reg 1 = 0x02 ∧ s.reg 0xF = 0x01 := by decide
theorem test_subn_borrow : let s := runWord 0x8127 (withRegs [(1, 0x05), (2, 0x03)]); s.reg 1 = 0xFE ∧ s.reg 0xF = 0x00 := by
  decide
/-- A23, A24. -/
theorem test_shl : let s := runWord 0x810E (withRegs [(1, 0x81)]); s.reg 1 = 0x02 ∧ s.reg 0xF = 0x01 := by decide
theorem test_shl_no_carry : let s := runWord 0x810E (withRegs [(1, 0x40)]); s.reg 1 = 0x80 ∧ s.reg 0xF = 0x00 := by decide
/-- A27. -/
theorem test_rnd : (runWord 0xC30F State.reset).reg 3 = 0x07 := by decide

/-! ## Index register and memory -/

/-- M1. -/
theorem test_ldI : (runWord 0xAFFF State.reset).i = 0x0FFF := by decide
/-- M2, M3. -/
theorem test_addI : (runWord 0xF51E ((withRegs [(5, 0x02)]).withI 0xFFFF)).i = 0x0001 ∧
    (runWord 0xF51E ((withRegs [(5, 0x01)]).withI 0x0FFF)).i = 0x1000 := by decide
/-- M5, M6. -/
theorem test_ldF : (runWord 0xFA29 (withRegs [(0xA, 0x0A)])).i = 0x0032 ∧
    (runWord 0xFA29 (withRegs [(0xA, 0xFF)])).i = 0x04FB := by decide
/-- M12, M13. -/
theorem test_ldB : (runWord 0xF533 ((withRegs [(5, 0xEA)]).withI 0xFFD)).mem.readBytes 0xFFD 3 = [0x02, 0x03, 0x04] := by
  decide
theorem test_ldB_bounds : let s := runWord 0xF533 ((withRegs [(5, 0xEA)]).withI 0xFFE)
    s.outcome = some (.error .memoryBounds) ∧ s.mem.readBytes 0xFFE 2 = [0, 0] ∧ s.pc = 0x202 := by decide
/-- M14, M15. -/
theorem test_ldMemVx : let s := runWord 0xF055 ((withRegs [(0, 0x5A)]).withI 0xFFF)
    s.mem.read 0xFFF = 0x5A ∧ s.i = 0xFFF := by decide
theorem test_ldMemVx_bounds : let s := runWord 0xF155 ((withRegs [(0, 0x5A), (1, 0x5B)]).withI 0xFFF)
    s.outcome = some (.error .memoryBounds) ∧ s.mem.read 0xFFF = 0 := by decide
/-- M17 at its last register, M18. -/
theorem test_ldVxMem : let s := runWord 0xFF65 (bytesAt 0xFF0 [0x10, 0x11] (bytesAt 0xFFF [0x1F] (State.reset.withI 0xFF0)))
    s.reg 0 = 0x10 ∧ s.reg 1 = 0x11 ∧ s.reg 0xF = 0x1F ∧ s.i = 0xFF0 := by decide
theorem test_ldVxMem_bounds : let s := runWord 0xFF65 ((withRegs [(0, 0x77)]).withI 0xFF1)
    s.outcome = some (.error .memoryBounds) ∧ s.reg 0 = 0x77 := by decide
/-- M20: a store into the font table is allowed and is read back. -/
theorem test_store_into_font (s : State) (h : s.i = 0x020) :
    ∃ t, exec (.ldMemVx 0) s = .next t ∧ t.outcome = some .completed ∧ t.mem.read 0x020 = s.reg 0 := by
  have hi : s.i.toNat = 0x020 := by rw [h]; rfl
  have hl : s.i.toNat + (s.regBlock 0).length ≤ 0x1000 := by rw [hi]; simp
  refine ⟨_, congrArg Host.Outcome.next (s.storeAtI_completes hl), rfl, ?_⟩
  have h0 := s.regBlock_getElem? 0 0 (Nat.le_refl _)
  show (s.mem.writeBytes s.i.toNat (s.regBlock 0)).read 0x020 = s.reg 0
  rw [Memory.read_writeBytes, hi, if_pos (Nat.le_refl _), Nat.sub_self]
  exact congrArg (Option.getD · (s.mem.read 0x020)) h0

/-! ## Display -/

/-- D12. -/
theorem test_cls : let s := runWord 0x00E0 (pixelOn 31 63 (withRegs [(0xF, 0x07)]))
    pixel s.fb 31 63 = false ∧ s.reg 0xF = 0x07 := by decide
/-- D8: a collision turns pixel (0, 0) off and sets VF. -/
theorem test_drw_collision : let s := runWord 0xD011 (bytesAt 0x300 [0xC0] ((pixelOn 0 0 State.reset).withI 0x300))
    pixel s.fb 0 0 = false ∧ pixel s.fb 0 1 = true ∧ s.reg 0xF = 1 := by decide
/-- D6: only pixel (63, 31) is on, the rest is clipped. -/
theorem test_drw_clips : let s := runWord 0xD011 (bytesAt 0x300 [0xFF] ((withRegs [(0, 0x7F), (1, 0x3F)]).withI 0x300))
    pixel s.fb 31 63 = true ∧ pixel s.fb 31 0 = false ∧ pixel s.fb 0 0 = false ∧ s.reg 0xF = 0 := by decide

/-! ## Keypad and timers -/

/-- K1, K4. -/
theorem test_skp : (runKeys [5] 0xE29E (withRegs [(2, 0x05)])).pc = 0x204 ∧
    (runKeys [] 0xE29E (withRegs [(2, 0x05)])).pc = 0x202 := by decide
theorem test_skp_keyIndex : (runWord 0xE29E (withRegs [(2, 0x10)])).outcome = some (.error .keyIndex) ∧
    (runWord 0xE29E (withRegs [(2, 0x10)])).pc = 0x202 := by decide
/-- K3, K5. -/
theorem test_sknp : (runKeys [] 0xE2A1 (withRegs [(2, 0x05)])).pc = 0x204 := by decide
theorem test_sknp_keyIndex : (runWord 0xE2A1 (withRegs [(2, 0xFF)])).outcome = some (.error .keyIndex) := by decide
/-- K6 and K8: in `edge` a held key does not end the wait; K10: the least new key does. -/
theorem test_ldVxK_edge :
    let s := (State.reset.sample (keysDown [4]) 0).beginKeyWait .edge 3
    s.outcome = some .waitingForKey ∧ (s.waitStep .edge ⟨3, keysDown [4]⟩).outcome = some .waitingForKey ∧
    ((State.reset.sample (keysDown [2, 9, 0xC]) 0).waitStep .edge ⟨3, keysDown [2]⟩).reg 3 = 0x09 := by decide
/-- K11 and K12. -/
theorem test_ldVxK_level :
    ((State.reset.sample (keysDown [0xB, 0x6]) 0).beginKeyWait .level 3).reg 3 = 0x06 ∧
    ((State.reset.sample noKeys 0).beginKeyWait .level 3).outcome = some .waitingForKey := by decide
/-- K14. -/
theorem test_ldDtVx : (runWord 0xF415 (withRegs [(4, 0x3C)])).dt = 0x3C := by decide
theorem test_ldVxDt : (runWord 0xF507 (State.reset.withDt 0x3C)).reg 5 = 0x3C := by decide
/-- K16, and a nonzero value. -/
theorem test_ldStVx : (runWord 0xF418 (State.reset.withSt 9)).st = 0x00 ∧ (runWord 0xF418 (withRegs [(4, 0x3C)])).st = 0x3C := by
  decide

/-! ## Host ports -/

/-- S12, K15. -/
theorem test_tick : ((State.reset.withDt 1).tickTimers).dt = 0 ∧ ((State.reset.withDt 1).tickTimers).st = 0 ∧
    ((State.reset.withSt 1).tickTimers.tickTimers).st = 0 := by decide
/-- L5. -/
theorem test_load : let s := ((withRegs [(0, 0x12)]).withPc 0x300).load [0x60, 0x01]
    s.1 = .ok ∧ s.2.mem.readBytes 0x200 2 = [0x60, 0x01] ∧ s.2.pc = 0x300 ∧ s.2.reg 0 = 0x12 := by decide
/-- A load joins the host's order of operations (R138, R143). -/
theorem test_runOps : (State.reset.runOps [.load [0x6A, 0x42], .step noKeys 0, .tick]).reg 0xA = 0x42 := by decide
/-- The two views give the framebuffer and ST as they stand (R137, R142). -/
theorem test_views : (State.reset.withSt 9).soundView = 9 ∧ pixel (pixelOn 3 4 State.reset).framebufferView 3 4 = true := by
  decide
/-- R124: the codes. -/
theorem test_codes : [ErrorKind.memoryBounds, .stackOverflow, .stackUnderflow, .unimplementedOpcode, .keyIndex,
    .programTooLarge].map ErrorKind.code = [1, 2, 3, 4, 5, 6] := by decide
/-- An error ends a run under the host that halts at errors (R125, R152), and is on record (D16). -/
theorem test_record : ¬ (stepOnce State.reset).noError ∧ (stepOnce State.reset).errorLog = [.unimplementedOpcode] := by decide

/-- A new core is as after reset (R146), and the record of errors goes on (log 2). -/
theorem test_construct : let s := (State.reset.withPc 0x300).runOps [.step noKeys 0, .construct]
    s.pc = 0x200 ∧ s.outcome = none ∧ s.errorLog = [.unimplementedOpcode] := by decide

/-! ## Witnesses: encoding -/

/-- For every row a word that its mask and match select, at the highest value of every field. -/
theorem witness_OpcodeMapIsFollowed :
    ([(0x00E0, 0xFFFF, 0x00E0), (0x00EE, 0xFFFF, 0x00EE), (0x1FFF, 0xF000, 0x1000), (0x2FFF, 0xF000, 0x2000),
      (0x3FFF, 0xF000, 0x3000), (0x4FFF, 0xF000, 0x4000), (0x5FF0, 0xF00F, 0x5000), (0x6FFF, 0xF000, 0x6000),
      (0x7FFF, 0xF000, 0x7000), (0x8FF0, 0xF00F, 0x8000), (0x8FF1, 0xF00F, 0x8001), (0x8FF2, 0xF00F, 0x8002)] ++
     [(0x8FF3, 0xF00F, 0x8003), (0x8FF4, 0xF00F, 0x8004), (0x8FF5, 0xF00F, 0x8005), (0x8FF6, 0xF00F, 0x8006),
      (0x8FF7, 0xF00F, 0x8007), (0x8FFE, 0xF00F, 0x800E), (0x9FF0, 0xF00F, 0x9000), (0xAFFF, 0xF000, 0xA000),
      (0xBFFF, 0xF000, 0xB000), (0xCFFF, 0xF000, 0xC000), (0xDFFF, 0xF000, 0xD000), (0xEF9E, 0xF0FF, 0xE09E)] ++
     [(0xEFA1, 0xF0FF, 0xE0A1), (0xFF07, 0xF0FF, 0xF007), (0xFF0A, 0xF0FF, 0xF00A), (0xFF15, 0xF0FF, 0xF015),
      (0xFF18, 0xF0FF, 0xF018), (0xFF1E, 0xF0FF, 0xF01E), (0xFF29, 0xF0FF, 0xF029), (0xFF33, 0xF0FF, 0xF033),
      (0xFF55, 0xF0FF, 0xF055), (0xFF65, 0xF0FF, 0xF065)] : List (Word × Word × Word)).all
        (fun r => r.1 &&& r.2.1 == r.2.2) = true := by decide

theorem witness_EncodeOfDecodeIsTheWord : decodeWord 0xDFFF = some (.drw 0xF 0xF 0xF) := by decide

theorem witness_UnimplementedWordsAreTheSevenSets :
    wellFormedWord 0xFF65 = true ∧ (wellFormedWord 0x0FFF = false ∧ decodeWord 0x0FFF = none) ∧
    (wellFormedWord 0xBFFF = false ∧ decodeWord 0xBFFF = some (.jpV0 0xFFF)) := by decide

/-! ## Witnesses: the step cycle -/

/-- A state whose PC is the last address a fetch succeeds at, holding the word 0x6001. -/
def atLastWord : State := bytesAt 0xFFE [0x60, 0x01] (State.reset.withPc 0xFFE)

theorem witness_StepRunsTheDecodedInstruction : atLastWord.wait = none ∧ atLastWord.pc.toNat + 1 ≤ 0xFFF ∧
    decode (atLastWord.mem.readBytes atLastWord.pc.toNat 2) = .instr (.ldImm 0 0x01) [] := by decide

theorem witness_FetchReadsTheWordAtPc : atLastWord.pc.toNat + 1 ≤ 0xFFF ∧ atLastWord.wait = none ∧
    decodeWord (atLastWord.mem.read atLastWord.pc.toNat ++ atLastWord.mem.read (atLastWord.pc.toNat + 1)) =
      some (.ldImm 0 0x01) ∧
    (let s := State.reset.withPc 0xFFE
     s.pc.toNat + 1 ≤ 0xFFF ∧ s.wait = none ∧ decodeWord (s.mem.read s.pc.toNat ++ s.mem.read (s.pc.toNat + 1)) = none) := by decide

theorem witness_FetchOutsideMemoryChangesNothing :
    (State.reset.withPc 0xFFF).wait = none ∧ 0xFFF < (State.reset.withPc 0xFFF).pc.toNat + 1 ∧
    0xFFF < (State.reset.withPc 0x1002).pc.toNat + 1 := by decide

theorem witness_UnimplementedWordCommitsOnlyTheFetch :
    (State.reset.placeWord 0x8128).Fetches 0x8128 ∧ wellFormedWord 0x8128 = false ∧
    (State.reset.placeWord 0xB234).Fetches 0xB234 ∧ wellFormedWord 0xB234 = false := by decide

theorem witness_EveryStepReturnsAnOutcome :
    (stepOnce State.reset).outcome = some (.error .unimplementedOpcode) ∧ (stepOnce atLastWord).outcome = some .completed := by
  decide

/-- A fetch that fails, and an instruction that raises. -/
theorem witness_ErrorsCommitAtMostTheFetch :
    (∃ t, stepWith noKeys 0 (State.reset.withPc 0xFFF) = .next t ∧ t.outcome = some (.error .memoryBounds)) ∧
    (∃ t, stepWith noKeys 0 (State.reset.placeWord 0x00EE) = .next t ∧ t.outcome = some (.error .stackUnderflow)) :=
  ⟨⟨_, rfl, rfl⟩, ⟨_, rfl, rfl⟩⟩

/-- Each error, on the boundary of its condition and just inside it. -/
theorem witness_ErrorsAreRaisedExactlyWhen_control :
    (runWord 0x0000 State.reset).outcome = some (.error .unimplementedOpcode) ∧
    (runWord 0x2300 (State.reset.withSp 16)).outcome = some (.error .stackOverflow) ∧
    (runWord 0x2300 (State.reset.withSp 15)).outcome = some .completed ∧
    (runWord 0x00EE State.reset).outcome = some (.error .stackUnderflow) ∧
    (runWord 0x00EE (State.reset.withSp 1)).outcome = some .completed ∧
    (runWord 0xE29E (withRegs [(2, 0x10)])).outcome = some (.error .keyIndex) ∧
    (runWord 0xE2A1 (withRegs [(2, 0x0F)])).outcome = some .completed := by decide

theorem witness_ErrorsAreRaisedExactlyWhen_memory :
    (runWord 0xF533 (State.reset.withI 0xFFE)).outcome = some (.error .memoryBounds) ∧
    (runWord 0xF533 (State.reset.withI 0xFFD)).outcome = some .completed ∧
    (runWord 0xF155 (State.reset.withI 0xFFF)).outcome = some (.error .memoryBounds) ∧
    (runWord 0xF055 (State.reset.withI 0xFFF)).outcome = some .completed ∧
    (runWord 0xF165 (State.reset.withI 0xFFF)).outcome = some (.error .memoryBounds) ∧
    (runWord 0xF065 (State.reset.withI 0xFFF)).outcome = some .completed ∧
    (runWord 0xD012 (State.reset.withI 0xFFF)).outcome = some (.error .memoryBounds) ∧
    (runWord 0xD011 (State.reset.withI 0xFFF)).outcome = some .completed ∧
    (runWord 0xD010 (State.reset.withI 0xFFFF)).outcome = some .completed := by decide

/-- The fetch on its boundary, a waiting step at an address no fetch succeeds at, and a load on its boundary. -/
theorem witness_ErrorsAreRaisedExactlyWhen_fetch :
    (stepOnce (State.reset.withPc 0xFFF)).outcome = some (.error .memoryBounds) ∧
    (stepOnce (State.reset.withPc 0xFFE)).outcome = some (.error .unimplementedOpcode) ∧
    (∃ t, stepWith noKeys 0 ((State.reset.withPc 0xFFF).withWait (some ⟨3, noKeys⟩)) = .next t) ∧
    (3584 < (List.replicate 3585 (0 : Byte)).length ∧ ¬ 3584 < (List.replicate 3584 (0 : Byte)).length) :=
  ⟨by decide, by decide, ⟨_, rfl⟩, by simp only [List.length_replicate]; decide⟩

/-! ## Witnesses: whole-machine rules -/

/-- A state on the bounds of the invariant: PC = 0x1002, a full stack of the highest return address, memory with a cell listed. -/
def atTheBounds : State :=
  bytesAt 0xFFF [0x12] (((State.reset.withPc 0x1002).withSp 16).withStack (Vector.replicate 16 0x1000))

theorem witness_StepKeepsTheInvariant : atTheBounds.Inv ∧ ∃ t, step atTheBounds = .next t := ⟨by decide, _, rfl⟩

theorem witness_HostOperationsKeepTheInvariant : atTheBounds.Inv := by decide

/-- A step that fetches 0x6001, one that waits, and the boundary word just below the class. -/
theorem witness_RandomByteIsReadOnlyByRnd :
    ¬ (atLastWord.wait = none ∧ atLastWord.wordAtPc &&& 0xF000 = 0xC000) ∧
    (let s := (State.reset.placeWord 0xC30F).withWait (some ⟨3, noKeys⟩)
     ¬ (s.wait = none ∧ s.wordAtPc &&& 0xF000 = 0xC000)) := by decide

theorem witness_KeysAreReadOnlyByKeyInstructions : atLastWord.wait = none ∧ atLastWord.wordAtPc &&& 0xF0FF ≠ 0xE09E ∧
    atLastWord.wordAtPc &&& 0xF0FF ≠ 0xE0A1 ∧ atLastWord.wordAtPc &&& 0xF0FF ≠ 0xF00A := by decide

/-- Two states that differ in the slot at SP, with one slot in use. -/
theorem witness_StaleStackSlotsAreUnobservable :
    (State.reset.withSp 1).sameButStale ((State.reset.withSp 1).withStack (State.reset.stack.set 1 0x0456)) ∧
    State.reset.stack.set 1 0x0456 ≠ State.reset.stack := ⟨⟨rfl, by decide⟩, by decide⟩

/-- An instruction that meets all three clauses and answers a next state. -/
theorem witness_TimersAndFramebufferAreReadOnlyWhereNamed :
    (∃ t, exec (.ldVxMem 0xF) State.reset = .next t) ∧ (∀ x, Instr.ldVxMem 0xF ≠ .ldStVx x) ∧
    (∀ x, Instr.ldVxMem 0xF ≠ .ldDtVx x) ∧ (∀ x, Instr.ldVxMem 0xF ≠ .ldVxDt x) ∧ Instr.ldVxMem 0xF ≠ .cls ∧
    ∀ x y n, Instr.ldVxMem 0xF ≠ .drw x y n := by
  refine ⟨⟨_, rfl⟩, ?_, ?_, ?_, ?_, ?_⟩ <;> intros <;> exact Instr.noConfusion

/-- The self-loop at the highest address, and the one of P1. -/
theorem witness_SelfLoopIsAFixedPoint : ((State.reset.withPc 0xFFE).placeWord 0x1FFE).selfLoop ∧
    ((State.reset.withPc 0x20C).placeWord 0x120C).selfLoop := by decide

/-! ## Witnesses: frames -/

/-- For each of the five frames an instruction that answers a next state and meets the clause's condition: the register just past
the block of `Fx65`, a register beside the destination and VF of `8xy4`, and VF itself under `8xy1`. -/
theorem witness_RegistersOutsideTheDestinationAreUnchanged :
    (∃ t, exec (.ldVxMem 3) State.reset = .next t) ∧ Instr.hasDestination 4 (.ldVxMem 3) = false ∧
    (∃ t, exec (.addReg 1 2) State.reset = .next t) ∧ Instr.hasDestination 0xE (.addReg 1 2) = false ∧ (0xE : RegIdx) ≠ flagReg ∧
    (∃ t, exec (.orReg 1 2) State.reset = .next t) ∧ Instr.hasDestination flagReg (.orReg 1 2) = false ∧
    Instr.writesFlag (.orReg 1 2) = false :=
  ⟨⟨_, rfl⟩, by decide, ⟨_, rfl⟩, by decide, by decide, ⟨_, rfl⟩, by decide, by decide⟩

/-- The addresses next to the stored bytes, on both sides, and an address under an instruction that stores nothing. -/
theorem witness_MemoryOutsideTheStoredBytesIsUnchanged :
    let s := State.reset.withI 0x300
    (∃ t, exec (.ldB 1) s = .next t) ∧ 0x2FF < s.indexed 0 ∧ s.indexed 0 + (Instr.ldB 1).storeLength ≤ 0x303 ∧
    (∃ t, exec (.ldMemVx 3) s = .next t) ∧ s.indexed 0 + (Instr.ldMemVx 3).storeLength ≤ 0x304 ∧
    (∃ t, exec (.ldVxMem 3) s = .next t) ∧ s.indexed 0 + (Instr.ldVxMem 3).storeLength ≤ 0x300 :=
  ⟨⟨_, rfl⟩, by decide, by decide, ⟨_, rfl⟩, by decide, ⟨_, rfl⟩, by decide⟩

theorem witness_IndexTimersAndFramebufferFrame :
    (∃ t, exec (.ldMemVx 3) State.reset = .next t) ∧ Instr.writesIndex (.ldMemVx 3) = false ∧
    (∀ x, Instr.ldMemVx 3 ≠ .ldDtVx x) ∧ (∀ x, Instr.ldMemVx 3 ≠ .ldStVx x) ∧ Instr.ldMemVx 3 ≠ .cls ∧
    ∀ x y n, Instr.ldMemVx 3 ≠ .drw x y n := by
  refine ⟨⟨_, rfl⟩, by decide, ?_, ?_, ?_, ?_⟩ <;> intros <;> exact Instr.noConfusion

/-- A return, of which only the stack clause speaks, and a jump, of which both do. -/
theorem witness_StackIsWrittenOnlyByCallAndReturn :
    (∃ t, exec .ret (State.reset.withSp 1) = .next t) ∧ (∀ a, Instr.ret ≠ .call a) ∧
    (∃ t, exec (.jp 0x300) State.reset = .next t) ∧ (∀ a, Instr.jp 0x300 ≠ .call a) ∧ Instr.jp 0x300 ≠ .ret := by
  refine ⟨⟨_, rfl⟩, ?_, ⟨_, rfl⟩, ?_, ?_⟩ <;> intros <;> exact Instr.noConfusion

theorem witness_PcWaitAndInputsFrame :
    (∃ t, exec (.drw 0 1 5) State.reset = .next t) ∧ Instr.writesPc (.drw 0 1 5) = false ∧
    ∀ x, Instr.drw 0 1 5 ≠ .ldVxK x := by
  refine ⟨⟨_, rfl⟩, by decide, ?_⟩
  intros
  exact Instr.noConfusion

/-! ## Witnesses: control transfer -/

/-- An empty stack, one entry, and a full stack. -/
theorem witness_RetPopsTheReturnAddress : State.reset.sp.val = 0 ∧ (State.reset.withSp 1).sp = Fin.succ (0 : Fin 16) ∧
    (State.reset.withSp 16).sp = Fin.succ (15 : Fin 16) := by decide

/-- A full stack, one free slot, and an empty stack. -/
theorem witness_CallPushesThePostFetchPc : (State.reset.withSp 16).sp.val = 16 ∧ (0x2FFF : Word) &&& 0xF000 = 0x2000 ∧
    (State.reset.withSp 15).sp = Fin.castSucc (15 : Fin 16) ∧ State.reset.sp = Fin.castSucc (0 : Fin 16) := by decide

/-- S6: the state after the call, and a later state with the same stack. -/
theorem witness_ReturnAfterCallGoesBack :
    ∃ t, exec (.call 0x300) State.reset = .next t ∧ t.outcome = some .completed ∧
      ((t.withPc 0x308).setReg 1 9).sp = t.sp ∧ ((t.withPc 0x308).setReg 1 9).stack = t.stack := ⟨_, rfl, by decide⟩

theorem witness_ImmediateComparisonsSkip : (0x3FFF : Word) &&& 0xF000 = 0x3000 ∧ (0x4FFF : Word) &&& 0xF000 = 0x4000 := by
  decide

theorem witness_JpV0IsUnimplemented : (State.reset.placeWord 0xBFFF).Fetches 0xBFFF ∧ (0xBFFF : Word) &&& 0xF000 = 0xB000 := by
  decide

/-! ## Witnesses: register loads and ALU -/

theorem witness_LdImmSetsTheRegister :
    let s := (State.reset.withPc 0xFFE).placeWord 0x6A42
    s.Fetches 0x6A42 ∧ (0x6A42 : Word) &&& 0xF000 = 0x6000 ∧ ∃ t, stepWith noKeys 0 s = .next t := by
  refine ⟨by decide, by decide, ?_⟩
  exact ⟨_, rfl⟩

theorem witness_AddImmAddsWithoutFlag : (0x7FFF : Word) &&& 0xF000 = 0x7000 ∧ (0xF : RegIdx) ≠ 0xE := by decide

theorem witness_LdRegCopiesTheRegister : (0x8FF0 : Word) &&& 0xF00F = 0x8000 := by decide

/-- A register that is neither the destination nor VF, and a destination that is not VF: for the ALU statements. -/
theorem witness_AddRegSetsTheCarry : (0xE : RegIdx) ≠ flagReg ∧ (0xD : RegIdx) ≠ 0xE ∧ (0xD : RegIdx) ≠ flagReg := by decide
theorem witness_SubtractionsCompareStrictly : (0 : RegIdx) ≠ flagReg ∧ (1 : RegIdx) ≠ 0 ∧ (1 : RegIdx) ≠ flagReg := by decide
theorem witness_ShiftsMoveOneBitIntoTheFlag : (0xE : RegIdx) ≠ flagReg ∧ (0 : RegIdx) ≠ 0xE ∧ (0 : RegIdx) ≠ flagReg := by decide
theorem witness_LogicOperationsAreBitwise : flagReg ≠ (1 : RegIdx) := by decide
theorem witness_RndMasksTheSuppliedByte : flagReg ≠ (3 : RegIdx) := by decide

/-! ## Witnesses: index register and memory -/

theorem witness_LdISetsTheIndex : (0xAFFF : Word) &&& 0xF000 = 0xA000 := by decide

/-- The last range inside memory, and the first outside, for one byte and for sixteen. -/
theorem witness_MemReadIsBoundsChecked :
    (1 ≤ 1 ∧ 0xFFF + 1 - 1 ≤ 0xFFF) ∧ (1 ≤ 1 ∧ 0x1000 + 1 - 1 > 0xFFF) ∧ (1 ≤ 16 ∧ 0xFF0 + 16 - 1 ≤ 0xFFF) ∧
    (1 ≤ 16 ∧ 0xFF1 + 16 - 1 > 0xFFF) := by decide

theorem witness_LdBStoresDecimalDigits : 0xFFF < (State.reset.withI 0xFFE).i.toNat + 2 ∧
    (State.reset.withI 0xFFD).i.toNat + 2 ≤ 0xFFF := by decide

/-- M15 and M14; M18 and M17; and the register next to the block. -/
theorem witness_LdMemVxStoresTheRegisterBlock :
    0xFFF < (State.reset.withI 0xFFF).i.toNat + (1 : RegIdx).val ∧ (State.reset.withI 0xFFF).i.toNat + (0 : RegIdx).val ≤ 0xFFF := by
  decide
theorem witness_LdVxMemLoadsTheRegisterBlock :
    0xFFF < (State.reset.withI 0xFF1).i.toNat + (0xF : RegIdx).val ∧
    (State.reset.withI 0xFF0).i.toNat + (0xF : RegIdx).val ≤ 0xFFF := by decide

/-- S8: a completed store and a later state with that memory and that I. -/
theorem witness_StoreThenLoadRestoresRegisters :
    let s := (withRegs [(0, 0x11), (1, 0x22), (2, 0x33), (3, 0x44)]).withI 0x300
    ∃ t, exec (.ldMemVx 3) s = .next t ∧ t.outcome = some .completed ∧ (t.setReg 0 0).mem = t.mem ∧ (t.setReg 0 0).i = s.i :=
  ⟨_, rfl, by decide⟩

/-- `Fx55` over both bytes at PC, over the first alone (its last byte at PC) and over the second alone (its first byte at PC + 1),
at the last address a fetch succeeds at; and `Fx33` over both. -/
theorem witness_StoreIsSeenByTheNextFetch :
    let s := fun a : Word => ((withRegs [(0, 0x12), (1, 0x08)]).withPc 0xFFE).withI a
    (s 0xFFE).wait = none ∧ (s 0xFFE).pc.toNat + 1 ≤ 0xFFF ∧
    (∃ t, exec (.ldMemVx 1) (s 0xFFE) = .next t ∧ t.outcome = some .completed ∧ t.wordAtPc = 0x1208) ∧
    (∃ t, exec (.ldMemVx 1) (s 0xFFD) = .next t ∧ t.outcome = some .completed ∧ t.wordAtPc = 0x0800) ∧
    (∃ t, exec (.ldMemVx 0) (s 0xFFF) = .next t ∧ t.outcome = some .completed ∧ t.wordAtPc = 0x0012) ∧
    (∃ t, exec (.ldB 0) (s 0xFFD) = .next t ∧ t.outcome = some .completed ∧ t.wordAtPc = 0x0108) := by
  refine ⟨by decide, by decide, ⟨_, rfl, by decide⟩, ⟨_, rfl, by decide⟩, ⟨_, rfl, by decide⟩, ⟨_, rfl, by decide⟩⟩

/-! ## Witnesses: display -/

theorem witness_ClsTurnsEveryPixelOff : decodeWord 0x00E0 = some .cls ∧ ∀ py px, pixel State.reset.fb py px = false :=
  ⟨by decide, pixel_clearFramebuffer⟩

/-- No rows, the last range inside memory, and the first outside; a collision and none. -/
theorem witness_DrwXorsTheSprite :
    (0 : Fin 16).val = 0 ∧ (State.reset.withI 0xFFC).i.toNat + (4 : Fin 16).val - 1 ≤ 0xFFF ∧
    (1 ≤ (5 : Fin 16).val ∧ 0xFFF < (State.reset.withI 0xFFC).i.toNat + (5 : Fin 16).val - 1) ∧
    (spriteOn 0 0 [0xC0] 0 0 = true ∧ pixel (pixelOn 0 0 State.reset).fb 0 0 = true) ∧
    spriteOn 0 0 [0xC0] 0 2 = false ∧ (1 : RegIdx) ≠ flagReg := by decide

/-- S9. -/
theorem witness_DrawingTwiceRestoresTheFramebuffer :
    (0 : RegIdx) ≠ flagReg ∧ (1 : RegIdx) ≠ flagReg ∧
    ∃ t, exec (.drw 0 1 1) (bytesAt 0x300 [0xFF] (State.reset.withI 0x300)) = .next t := ⟨by decide, by decide, _, rfl⟩

/-! ## Witnesses: keypad, timers, host ports -/

theorem witness_KeySkipsFollowTheSample : 0xF < ((withRegs [(2, 0x10)]).reg 2).toNat ∧
    ((withRegs [(2, 0x0F)]).reg 2).toNat = (0xF : Fin 16).val := by decide

/-- Every key up; the least key is the last one; the least of two. -/
theorem witness_LdVxKBeginsAKeyWait :
    (∀ k, (State.reset.sample noKeys 0).keys.get k = false) ∧
    (let s := State.reset.sample (keysDown [0xF]) 0
     s.keys.get 0xF = true ∧ ∀ j : Fin 16, j < 0xF → s.keys.get j = false) ∧
    (let s := State.reset.sample (keysDown [0xB, 0x6]) 0
     s.keys.get 0x6 = true ∧ ∀ j : Fin 16, j < 0x6 → s.keys.get j = false) := by decide

/-- K10 and K8 in `edge`, K11 and K12 in `level`, with a wait pending. -/
theorem witness_WaitingStepTakesTheLeastKey :
    let s := (State.reset.sample (keysDown [2, 9, 0xC]) 0).withWait (some ⟨3, keysDown [2]⟩)
    let z := (State.reset.sample noKeys 0).withWait (some ⟨3, keysDown [2]⟩)
    s.wait = some ⟨3, keysDown [2]⟩ ∧ z.wait = some ⟨3, keysDown [2]⟩ ∧
    ((s.keys.get 9 && (KeywaitMode.edge == .level || !(keysDown [2]).get 9)) = true ∧
      ∀ j : Fin 16, j < 9 → (s.keys.get j && (KeywaitMode.edge == .level || !(keysDown [2]).get j)) = false) ∧
    ((s.keys.get 2 && (KeywaitMode.level == .level || !(keysDown [2]).get 2)) = true ∧
      ∀ j : Fin 16, j < 2 → (s.keys.get j && (KeywaitMode.level == .level || !(keysDown [2]).get j)) = false) ∧
    (∀ mode : Bool, ∀ k, (z.keys.get k && ((if mode then KeywaitMode.edge else .level) == .level || !(keysDown [2]).get k)) =
      false) := by decide

theorem witness_TimerInstructionsMoveOneByte : (0xFF07 : Word) &&& 0xF0FF = 0xF007 ∧ (0xFF15 : Word) &&& 0xF0FF = 0xF015 ∧
    (0xFF18 : Word) &&& 0xF0FF = 0xF018 := by decide

/-- S13: the longest program that loads, and one byte more. -/
theorem witness_LoadCopiesTheProgram : (List.replicate 3584 (0xFF : Byte)).length ≤ 3584 ∧
    (List.replicate 3584 (0xFF : Byte))[3583]? = some 0xFF ∧ (0x1FF < 0x200 ∧ 0x200 + 3584 ≤ 0x1000) := by
  refine ⟨?_, ?_, by decide⟩
  · rw [List.length_replicate]
  · rw [List.getElem?_replicate, if_pos (by decide)]
theorem witness_LoadOfTooMuchIsRefused : 3584 < (List.replicate 3585 (0xFF : Byte)).length := by
  rw [List.length_replicate]
  decide

/-- The last byte of the font, the first byte above it. -/
theorem witness_ResetValues : 0x4F < 0x50 ∧ 0x50 ≤ 0x50 := by decide

end Sys2Proof.Tests
end

/-! ## Control transfer (41_control_flow.md)

Rules shared by the instructions of a class: the encoding of a row that the class alone selects, the skip, the raise, and the
step that executes a decoded word. -/

namespace Sys2Proof.Machine

/-- A class whose dispatch looks at no other fixed digit holds every word of that class (R58, R59). -/
theorem encodedAs_of_dispatch_class {c : Nat} (hc : c < 16) {f : Fields → Instr}
    (h : ∀ fs : Fields, fs.cls.val = c → dispatch fs = some (f fs)) :
    EncodedAs 0xF000 (BitVec.ofNat 16 (c * 4096)) f := by
  intro w hw
  have hcls : (fields w).cls.val = c := (fields_cls_val w).trans ((and_F000 w c hc).mp hw)
  exact h (fields w) hcls

/-- A conditional skip, completed, changes nothing but PC (R86). -/
theorem State.skipIf_completesAs (s : State) (c : Bool) :
    s.CompletesAs (s.skipIf c).completed { s.toCoreState with pc := (s.skipIf c).completed.pc } := by
  rw [State.skipIf_eq]
  exact ⟨rfl, rfl, rfl, rfl, rfl, rfl⟩

/-- Where a conditional skip leaves PC, in arithmetic (R86). -/
theorem State.skipIf_pc_toNat (s : State) (c : Bool) :
    (s.skipIf c).completed.pc.toNat = if c then (s.pc.toNat + 2) % 2 ^ 16 else s.pc.toNat := by
  rw [State.skipIf_eq]
  cases c
  · rfl
  · exact BitVec.toNat_add s.pc 2

/-- `State.raise` is what the statements call raising (R73). -/
theorem State.raise_raisesAs (s : State) (e : ErrorKind) : s.RaisesAs (s.raise e) e :=
  ⟨rfl, rfl, rfl, rfl, rfl, rfl⟩

/-- A step that fetches a word that decodes executes it on the sampled post-fetch state (R67, R72). -/
theorem stepWith_executes {s : State} {w : Word} {i : Instr} (keys : Keys) (rand8 : Byte) (h : s.Fetches w)
    (hd : decodeWord w = some i) :
    stepWith keys rand8 s = exec i ((s.sample keys rand8).withPc (s.pc + 2)) :=
  State.cycle_executes ((State.fetches_sample keys rand8).mpr h) hd

/-- Every word of class 0x3 decodes to the row of R80. -/
theorem encodedAs_seImm : EncodedAs 0xF000 0x3000 (fun f => .seImm f.x f.nn) :=
  encodedAs_of_dispatch_class (c := 0x3) (by decide) fun fs h => by simp only [dispatch, h]

/-- Every word of class 0x4 decodes to the row of R81. -/
theorem encodedAs_sneImm : EncodedAs 0xF000 0x4000 (fun f => .sneImm f.x f.nn) :=
  encodedAs_of_dispatch_class (c := 0x4) (by decide) fun fs h => by simp only [dispatch, h]

/-- Settles O30: both instructions are `State.skipIf` on their comparison, and the condition of the skip is the equality or its
negation. -/
theorem immediateComparisonsSkip : Obligations.ImmediateComparisonsSkip := by
  refine ⟨encodedAs_seImm, encodedAs_sneImm, fun x kk s => ⟨?_, ?_⟩⟩
  · refine ⟨_, rfl, s.skipIf_completesAs _, ?_⟩
    simp only [State.skipIf_pc_toNat, beq_iff_eq]
  · refine ⟨_, rfl, s.skipIf_completesAs _, ?_⟩
    simp only [State.skipIf_pc_toNat, bne_iff_ne, ite_not]

/-- Every word of class 0xB decodes to the row of R84. -/
theorem encodedAs_jpV0 : EncodedAs 0xF000 0xB000 (fun f => .jpV0 f.nnn) :=
  encodedAs_of_dispatch_class (c := 0xB) (by decide) fun fs h => by simp only [dispatch, h]

/-- `Bnnn` is a raise and nothing else (R84). -/
theorem exec_jpV0 (nnn : Addr12) (s : State) : exec (.jpV0 nnn) s = .next (s.raise .unimplementedOpcode) := rfl

/-- Settles O32: the execute phase is a raise, which changes nothing of the core, so the step commits the PC of the fetch
alone. -/
theorem jpV0IsUnimplemented : Obligations.JpV0IsUnimplemented := by
  refine ⟨encodedAs_jpV0, fun nnn s => ⟨_, exec_jpV0 nnn s, s.raise_raisesAs _⟩, fun s w keys rand8 hf hw => ?_⟩
  have hstep : stepWith keys rand8 s =
      .next (((s.sample keys rand8).withPc (s.pc + 2)).raise .unimplementedOpcode) := by
    rw [stepWith_executes keys rand8 hf (encodedAs_jpV0 w hw), exec_jpV0]
  refine ⟨_, hstep, State.raise_outcome _ _, ?_⟩
  rw [State.raise_core, State.withPc_core, State.sample_core]

end Sys2Proof.Machine

/-! ## Register loads and the ALU (42_alu.md)

Rules shared by the instructions that write one register: the encoding of a row that the class and the nibble n select, and what
a completed register write changes. -/

namespace Sys2Proof.Machine

/-- A row that the class and the nibble n select holds every word with those two digits (R58, R59). -/
theorem encodedAs_of_dispatch_class_nibble {c n : Nat} (hc : c < 16) (hn : n < 16) {f : Fields → Instr}
    (h : ∀ fs : Fields, fs.cls.val = c → fs.n.val = n → dispatch fs = some (f fs)) :
    EncodedAs 0xF00F (BitVec.ofNat 16 (c * 4096 + n)) f := by
  intro w hw
  obtain ⟨hclass, hnibble⟩ := (and_F00F w c n hc hn).mp hw
  have hcls : (fields w).cls.val = c := (fields_cls_val w).trans hclass
  have hlow : (fields w).n.val = n := (fields_n_val w).trans hnibble
  exact h (fields w) hcls hlow

/-- Completing a step changes no register. -/
@[simp] theorem State.reg_completed (s : State) (r : RegIdx) : s.completed.reg r = s.reg r :=
  State.reg_congr (State.completed_v s) r

/-- Writing a register leaves PC. -/
@[simp] theorem State.setReg_pc (s : State) (x : RegIdx) (b : Byte) : (s.setReg x b).pc = s.pc := rfl

/-- A register write, completed, changes nothing but the register file (R76). -/
theorem State.setReg_completesAs (s : State) (x : RegIdx) (b : Byte) :
    s.CompletesAs (s.setReg x b).completed { s.toCoreState with v := (s.setReg x b).completed.v } := by
  rw [State.setReg_eq]
  exact ⟨rfl, rfl, rfl, rfl, rfl, rfl⟩

/-- A completed register write leaves every other register, VF among them. -/
theorem State.reg_setReg_completed_of_ne (s : State) {x r : RegIdx} (b : Byte) (h : r ≠ x) :
    (s.setReg x b).completed.reg r = s.reg r := by
  rw [State.reg_completed, State.reg_setReg, if_neg h]

/-- The PC of a fetch inside memory does not wrap when it advances (R68). -/
theorem State.Fetches.pc_add_two_toNat {s : State} {w : Word} (h : s.Fetches w) :
    (s.pc + 2).toNat = s.pc.toNat + 2 := by
  obtain ⟨_, hpc, _⟩ := h
  bv_omega

/-- Every word of class 0x6 decodes to the row of R88. -/
theorem encodedAs_ldImm : EncodedAs 0xF000 0x6000 (fun f => .ldImm f.x f.nn) :=
  encodedAs_of_dispatch_class (c := 0x6) (by decide) fun fs h => by simp only [dispatch, h]

/-- `6xkk` is a write of kk to Vx (R88). -/
theorem exec_ldImm (x : RegIdx) (kk : Byte) (s : State) : exec (.ldImm x kk) s = .next (s.setReg x kk).completed := rfl

/-- Settles O33: the instruction is one register write, which leaves PC as the fetch advanced it. -/
theorem ldImmSetsTheRegister : Obligations.LdImmSetsTheRegister := by
  refine ⟨encodedAs_ldImm, fun x kk s => ⟨_, exec_ldImm x kk s, s.setReg_completesAs x kk, fun r => ?_⟩,
    fun s t w keys rand8 hf hw hstep => ?_⟩
  · rw [State.reg_completed, State.reg_setReg]
  · rw [stepWith_executes keys rand8 hf (encodedAs_ldImm w hw), exec_ldImm] at hstep
    cases hstep
    rw [State.completed_pc, State.setReg_pc, State.withPc_pc]
    exact hf.pc_add_two_toNat

/-- Every word of class 0x7 decodes to the row of R89. -/
theorem encodedAs_addImm : EncodedAs 0xF000 0x7000 (fun f => .addImm f.x f.nn) :=
  encodedAs_of_dispatch_class (c := 0x7) (by decide) fun fs h => by simp only [dispatch, h]

/-- `7xkk` is a write of the wrapped sum to Vx, with no flag (R89, R99). -/
theorem exec_addImm (x : RegIdx) (kk : Byte) (s : State) :
    exec (.addImm x kk) s = .next (s.setReg x (s.reg x + kk)).completed := rfl

/-- Settles O34: the instruction is one register write of a byte sum, which wraps mod 256; no flag is written. -/
theorem addImmAddsWithoutFlag : Obligations.AddImmAddsWithoutFlag := by
  refine ⟨encodedAs_addImm, fun x kk s => ⟨_, exec_addImm x kk s, s.setReg_completesAs x _, ?_,
    fun r hr => s.reg_setReg_completed_of_ne _ hr⟩⟩
  rw [State.reg_completed, State.reg_setReg, if_pos rfl]
  exact BitVec.toNat_add (s.reg x) kk

/-- Every word of class 0x8 with n = 0 decodes to the row of R90. -/
theorem encodedAs_ldReg : EncodedAs 0xF00F 0x8000 (fun f => .ldReg f.x f.y) :=
  encodedAs_of_dispatch_class_nibble (c := 0x8) (n := 0x0) (by decide) (by decide) fun fs hc hn => by
    simp only [dispatch, dispatch8, hc, hn]

/-- `8xy0` is a write of Vy to Vx (R90). -/
theorem exec_ldReg (x y : RegIdx) (s : State) : exec (.ldReg x y) s = .next (s.setReg x (s.reg y)).completed := rfl

/-- Settles O35: the instruction is one register write of the byte that Vy held. -/
theorem ldRegCopiesTheRegister : Obligations.LdRegCopiesTheRegister := by
  refine ⟨encodedAs_ldReg, fun x y s => ⟨_, exec_ldReg x y s, s.setReg_completesAs x _, fun r => ?_⟩⟩
  rw [State.reg_completed, State.reg_setReg]

end Sys2Proof.Machine

/-! ## Index register (43_index_memory.md)

Rules shared by the instructions that write I: what a completed write of I changes, and the value of a zero-extended address. -/

namespace Sys2Proof.Machine

/-- A write of I, completed, changes nothing but I (R76). -/
theorem State.withI_completesAs (s : State) (a : Word) :
    s.CompletesAs (s.withI a).completed { s.toCoreState with i := (s.withI a).completed.i } :=
  ⟨rfl, rfl, rfl, rfl, rfl, rfl⟩

/-- Zero extension keeps the value of an address (R57). -/
@[simp] theorem zext16_toNat (nnn : Addr12) : (zext16 nnn).toNat = nnn.toNat :=
  BitVec.toNat_setWidth_of_le (by decide)

/-- Every word of class 0xA decodes to the row of R102. -/
theorem encodedAs_ldI : EncodedAs 0xF000 0xA000 (fun f => .ldI f.nnn) :=
  encodedAs_of_dispatch_class (c := 0xA) (by decide) fun fs h => by simp only [dispatch, h]

/-- `Annn` is a write of the zero-extended nnn to I (R102). -/
theorem exec_ldI (nnn : Addr12) (s : State) : exec (.ldI nnn) s = .next (s.withI (zext16 nnn)).completed := rfl

/-- Settles O41: the instruction is one write of I, and a 12-bit address stays at most 0xFFF when it is zero-extended. -/
theorem ldISetsTheIndex : Obligations.LdISetsTheIndex := by
  refine ⟨encodedAs_ldI, fun nnn s => ?_⟩
  have hi : (s.withI (zext16 nnn)).completed.i.toNat = nnn.toNat := by
    rw [State.completed_i, State.withI_i, zext16_toNat]
  have hbound : nnn.toNat ≤ 0xFFF := Nat.le_of_lt_succ nnn.isLt
  exact ⟨_, exec_ldI nnn s, s.withI_completesAs _, hi, hi.trans_le hbound⟩

end Sys2Proof.Machine

/-! ## Timer ticks (60_exceptions.md)

What a tick of the host leaves in each timer, and that it is nothing but the two timer writes. -/

namespace Sys2Proof.Machine

/-- Counting a timer down is the truncated subtraction of 1 on its value: it stops at 0, with no wrap to 255 (R135). -/
theorem countDown_toNat (b : Byte) : (countDown b).toNat = b.toNat - 1 := by
  unfold countDown
  split
  · next hpos =>
    have hone : (1 : Byte) ≤ b := BitVec.le_def.mpr hpos
    exact BitVec.toNat_sub_of_le hone
  · next hzero => omega

/-- A tick leaves the delay timer counted down (R135); the write of ST after it does not touch DT. -/
@[simp] theorem State.tickTimers_dt (s : State) : s.tickTimers.dt = countDown s.dt := rfl

/-- A tick leaves the sound timer counted down (R135). -/
@[simp] theorem State.tickTimers_st (s : State) : s.tickTimers.st = countDown s.st := rfl

/-- A tick writes DT and ST only, a pending wait or not (R135). -/
theorem State.tickTimers_eq_update (s : State) :
    s.tickTimers = { s with dt := s.tickTimers.dt, st := s.tickTimers.st } := rfl

/-- Settles O56: a tick is the two timer writes, and each writes the value counted down. -/
theorem tickCountsBothTimersDown : Obligations.TickCountsBothTimersDown := by
  refine fun s => ⟨s.tickTimers_eq_update, ?_, ?_⟩
  · rw [State.tickTimers_dt, countDown_toNat]
  · rw [State.tickTimers_st, countDown_toNat]

end Sys2Proof.Machine

/-! ## Encoding: the rows of the opcode map, and decode against encode (30_encoding.md)

The instruction of a row is read off the fields of the word (`Instr.row`). Every word that the row's mask and match select decodes
to it, and the encoder's word has the operands in its fields; the two together are the round trip. -/

namespace Sys2Proof

/-- The instruction of the same row with the operands that the fields hold (R57, R59). -/
def Instr.row : Instr → Fields → Instr
  | .cls, _          => .cls
  | .ret, _          => .ret
  | .jp _, f         => .jp f.nnn
  | .call _, f       => .call f.nnn
  | .seImm _ _, f    => .seImm f.x f.nn
  | .sneImm _ _, f   => .sneImm f.x f.nn
  | .seReg _ _, f    => .seReg f.x f.y
  | .ldImm _ _, f    => .ldImm f.x f.nn
  | .addImm _ _, f   => .addImm f.x f.nn
  | .ldReg _ _, f    => .ldReg f.x f.y
  | .orReg _ _, f    => .orReg f.x f.y
  | .andReg _ _, f   => .andReg f.x f.y
  | .xorReg _ _, f   => .xorReg f.x f.y
  | .addReg _ _, f   => .addReg f.x f.y
  | .subReg _ _, f   => .subReg f.x f.y
  | .shr _ _, f      => .shr f.x f.y
  | .subnReg _ _, f  => .subnReg f.x f.y
  | .shl _ _, f      => .shl f.x f.y
  | .sneReg _ _, f   => .sneReg f.x f.y
  | .ldI _, f        => .ldI f.nnn
  | .jpV0 _, f       => .jpV0 f.nnn
  | .rnd _ _, f      => .rnd f.x f.nn
  | .drw _ _ _, f    => .drw f.x f.y f.n
  | .skp _, f        => .skp f.x
  | .sknp _, f       => .sknp f.x
  | .ldVxDt _, f     => .ldVxDt f.x
  | .ldVxK _, f      => .ldVxK f.x
  | .ldDtVx _, f     => .ldDtVx f.x
  | .ldStVx _, f     => .ldStVx f.x
  | .addI _, f       => .addI f.x
  | .ldF _, f        => .ldF f.x
  | .ldB _, f        => .ldB f.x
  | .ldMemVx _, f    => .ldMemVx f.x
  | .ldVxMem _, f    => .ldVxMem f.x

/-! ### The fields of an encoded word -/

@[simp] theorem fields_encAddr_nnn {c : Nat} (hc : c < 16) (nnn : Addr12) : (fields (encAddr c nnn)).nnn = nnn := by
  apply BitVec.eq_of_toNat_eq
  rw [fields_nnn_toNat, toNat_encAddr hc]
  omega

@[simp] theorem fields_encRegImm_x {c : Nat} (hc : c < 16) (x : RegIdx) (kk : Byte) :
    (fields (encRegImm c x kk)).x = x := by
  apply Fin.ext
  rw [fields_x_val, toNat_encRegImm hc]
  omega

@[simp] theorem fields_encRegImm_nn {c : Nat} (hc : c < 16) (x : RegIdx) (kk : Byte) :
    (fields (encRegImm c x kk)).nn = kk := by
  apply BitVec.eq_of_toNat_eq
  rw [fields_nn_toNat, toNat_encRegImm hc]
  omega

@[simp] theorem fields_encRegReg_x {c n : Nat} (hc : c < 16) (hn : n < 16) (x y : RegIdx) :
    (fields (encRegReg c x y n)).x = x := by
  apply Fin.ext
  rw [fields_x_val, toNat_encRegReg hc hn]
  omega

@[simp] theorem fields_encRegReg_y {c n : Nat} (hc : c < 16) (hn : n < 16) (x y : RegIdx) :
    (fields (encRegReg c x y n)).y = y := by
  apply Fin.ext
  rw [fields_y_val, toNat_encRegReg hc hn]
  omega

@[simp] theorem fields_encRegReg_n {c : Nat} (hc : c < 16) (x y : RegIdx) (n : Fin 16) :
    (fields (encRegReg c x y n.val)).n = n := by
  apply Fin.ext
  rw [fields_n_val, toNat_encRegReg hc n.isLt]
  omega

/-- The fields of an instruction's word hold its operands (R56, R57). -/
theorem row_fields_encode (i : Instr) : i.row (fields (encode i)) = i := by
  cases i <;> simp [Instr.row, encode]

/-- The word of an instruction matches its row of the opcode table. -/
theorem encode_and_tableMask : ∀ i : Instr, encode i &&& i.tableMask = i.tableMatch
  | .cls => Laws.TableMatch.cls
  | .ret => Laws.TableMatch.ret
  | .jp nnn => Laws.TableMatch.jp nnn
  | .call nnn => Laws.TableMatch.call nnn
  | .seImm x kk => Laws.TableMatch.seImm x kk
  | .sneImm x kk => Laws.TableMatch.sneImm x kk
  | .seReg x y => Laws.TableMatch.seReg x y
  | .ldImm x kk => Laws.TableMatch.ldImm x kk
  | .addImm x kk => Laws.TableMatch.addImm x kk
  | .ldReg x y => Laws.TableMatch.ldReg x y
  | .orReg x y => Laws.TableMatch.orReg x y
  | .andReg x y => Laws.TableMatch.andReg x y
  | .xorReg x y => Laws.TableMatch.xorReg x y
  | .addReg x y => Laws.TableMatch.addReg x y
  | .subReg x y => Laws.TableMatch.subReg x y
  | .shr x y => Laws.TableMatch.shr x y
  | .subnReg x y => Laws.TableMatch.subnReg x y
  | .shl x y => Laws.TableMatch.shl x y
  | .sneReg x y => Laws.TableMatch.sneReg x y
  | .ldI nnn => Laws.TableMatch.ldI nnn
  | .jpV0 nnn => Laws.TableMatch.jpV0 nnn
  | .rnd x kk => Laws.TableMatch.rnd x kk
  | .drw x y n => Laws.TableMatch.drw x y n
  | .skp x => Laws.TableMatch.skp x
  | .sknp x => Laws.TableMatch.sknp x
  | .ldVxDt x => Laws.TableMatch.ldVxDt x
  | .ldVxK x => Laws.TableMatch.ldVxK x
  | .ldDtVx x => Laws.TableMatch.ldDtVx x
  | .ldStVx x => Laws.TableMatch.ldStVx x
  | .addI x => Laws.TableMatch.addI x
  | .ldF x => Laws.TableMatch.ldF x
  | .ldB x => Laws.TableMatch.ldB x
  | .ldMemVx x => Laws.TableMatch.ldMemVx x
  | .ldVxMem x => Laws.TableMatch.ldVxMem x

/-! ### The word from its fields -/

/-- A word of format `ADDR` is encoded from its own fields (R56). -/
theorem encAddr_fields {w : Word} {c : Nat} (hc : (fields w).cls.val = c) : encAddr c (fields w).nnn = w := by
  have hlt : c < 16 := hc ▸ (fields w).cls.isLt
  rw [fields_cls_val] at hc
  apply BitVec.eq_of_toNat_eq
  rw [toNat_encAddr hlt, fields_nnn_toNat]
  omega

/-- A word of format `REG_IMM` or `REG_SUB` is encoded from its own fields (R56). -/
theorem encRegImm_fields {w : Word} {c : Nat} {k : Byte} (hc : (fields w).cls.val = c) (hk : (fields w).nn.toNat = k.toNat) :
    encRegImm c (fields w).x k = w := by
  have hlt : c < 16 := hc ▸ (fields w).cls.isLt
  rw [fields_cls_val] at hc
  rw [fields_nn_toNat] at hk
  apply BitVec.eq_of_toNat_eq
  rw [toNat_encRegImm hlt, fields_x_val]
  omega

/-- A word of format `REG_REG` or `DRAW` is encoded from its own fields (R56). -/
theorem encRegReg_fields {w : Word} {c n : Nat} (hc : (fields w).cls.val = c) (hn : (fields w).n.val = n) :
    encRegReg c (fields w).x (fields w).y n = w := by
  have hlt : c < 16 := hc ▸ (fields w).cls.isLt
  have hlow : n < 16 := hn ▸ (fields w).n.isLt
  rw [fields_cls_val] at hc
  rw [fields_n_val] at hn
  apply BitVec.eq_of_toNat_eq
  rw [toNat_encRegReg hlt hlow, fields_x_val, fields_y_val]
  omega

/-- A word of class 0x0 with x = 0 is its low byte (R60). -/
theorem toNat_eq_nn_of_class0 {w : Word} (hc : (fields w).cls.val = 0) (hx : (fields w).x = 0) :
    w.toNat = (fields w).nn.toNat := by
  have hx' : (fields w).x.val = 0 := congrArg Fin.val hx
  rw [fields_cls_val] at hc
  rw [fields_x_val] at hx'
  rw [fields_nn_toNat]
  omega

theorem encode_of_dispatch0 {w : Word} {i : Instr} (hc : (fields w).cls.val = 0) (h : dispatch0 (fields w) = some i) :
    encode i = w := by
  unfold dispatch0 at h
  split_ifs at h with hcls hret
  all_goals
    cases h
    apply BitVec.eq_of_toNat_eq
  · rw [toNat_eq_nn_of_class0 hc hcls.1, hcls.2]
    rfl
  · rw [toNat_eq_nn_of_class0 hc hret.1, hret.2]
    rfl

theorem encode_of_dispatch8 {w : Word} {i : Instr} (hc : (fields w).cls.val = 0x8) (h : dispatch8 (fields w) = some i) :
    encode i = w := by
  unfold dispatch8 at h
  split at h <;> cases h <;> exact encRegReg_fields hc ‹_›

theorem encode_of_dispatchE {w : Word} {i : Instr} (hc : (fields w).cls.val = 0xE) (h : dispatchE (fields w) = some i) :
    encode i = w := by
  unfold dispatchE at h
  split at h <;> cases h <;> exact encRegImm_fields hc ‹_›

theorem encode_of_dispatchF {w : Word} {i : Instr} (hc : (fields w).cls.val = 0xF) (h : dispatchF (fields w) = some i) :
    encode i = w := by
  unfold dispatchF at h
  split at h <;> cases h <;> exact encRegImm_fields hc ‹_›

/-- A row that dispatch selects encodes to the word the fields were read from (R54, R60). -/
theorem encode_of_decodeWord {w : Word} {i : Instr} (h : decodeWord w = some i) : encode i = w := by
  unfold decodeWord dispatch at h
  split at h
  case h_1 hc => exact encode_of_dispatch0 hc h
  case h_9 hc => exact encode_of_dispatch8 hc h
  case h_15 hc => exact encode_of_dispatchE hc h
  case h_16 hc => exact encode_of_dispatchF hc h
  case h_6 hc | h_10 hc =>
    split at h <;> cases h
    exact encRegReg_fields hc (congrArg Fin.val ‹(fields w).n = 0›)
  case h_2 hc | h_3 hc | h_11 hc | h_12 hc =>
    cases h
    exact encAddr_fields hc
  case h_4 hc | h_5 hc | h_7 hc | h_8 hc | h_13 hc =>
    cases h
    exact encRegImm_fields hc rfl
  case h_14 hc =>
    cases h
    exact encRegReg_fields hc rfl
  case h_17 => cases h

end Sys2Proof

namespace Sys2Proof.Machine

/-- Settles O4: each row that dispatch can select is encoded from the fields it was read from, the ignored y of the shifts among
them. -/
theorem encodeOfDecodeIsTheWord : Obligations.EncodeOfDecodeIsTheWord := fun _ _ => encode_of_decodeWord

/-- A row that the class and the low byte select holds every word with those digits (R58, R59). -/
theorem encodedAs_of_dispatch_class_byte {c k : Nat} (hc : c < 16) (hk : k < 256) {f : Fields → Instr}
    (h : ∀ fs : Fields, fs.cls.val = c → fs.nn.toNat = k → dispatch fs = some (f fs)) :
    EncodedAs 0xF0FF (BitVec.ofNat 16 (c * 4096 + k)) f := by
  intro w hw
  obtain ⟨hclass, hbyte⟩ := (and_F0FF w c k hc hk).mp hw
  exact h (fields w) ((fields_cls_val w).trans hclass) ((fields_nn_toNat w).trans hbyte)

/-- A row with no operand holds its one word (R60). -/
theorem encodedAs_of_decodeWord {v : Word} {i : Instr} (h : decodeWord v = some i) : EncodedAs 0xFFFF v fun _ => i := by
  intro w hw
  have hv : w = v := BitVec.and_allOnes.symm.trans hw
  exact hv ▸ h

/-- A row of class 0x8 holds every word of the class with its nibble n (R58, R59). -/
theorem encodedAs_class8 {n : Nat} (hn : n < 16) {f : Fields → Instr}
    (h : ∀ fs : Fields, fs.n.val = n → dispatch8 fs = some (f fs)) :
    EncodedAs 0xF00F (BitVec.ofNat 16 (0x8 * 4096 + n)) f :=
  encodedAs_of_dispatch_class_nibble (by decide) hn fun fs hc hlow => by simpa only [dispatch, hc] using h fs hlow

/-- A row of class 0xE holds every word of the class with its low byte (R58, R59). -/
theorem encodedAs_classE {k : Nat} (hk : k < 256) {f : Fields → Instr}
    (h : ∀ fs : Fields, fs.nn.toNat = k → dispatchE fs = some (f fs)) :
    EncodedAs 0xF0FF (BitVec.ofNat 16 (0xE * 4096 + k)) f :=
  encodedAs_of_dispatch_class_byte (by decide) hk fun fs hc hlow => by simpa only [dispatch, hc] using h fs hlow

/-- A row of class 0xF holds every word of the class with its low byte (R58, R59). -/
theorem encodedAs_classF {k : Nat} (hk : k < 256) {f : Fields → Instr}
    (h : ∀ fs : Fields, fs.nn.toNat = k → dispatchF fs = some (f fs)) :
    EncodedAs 0xF0FF (BitVec.ofNat 16 (0xF * 4096 + k)) f :=
  encodedAs_of_dispatch_class_byte (by decide) hk fun fs hc hlow => by simpa only [dispatch, hc] using h fs hlow

/-- Every word that a row's mask and match select decodes to the row's instruction (R59). -/
theorem encodedAs_row : ∀ i : Instr, EncodedAs i.tableMask i.tableMatch i.row
  | .cls => encodedAs_of_decodeWord (by decide)
  | .ret => encodedAs_of_decodeWord (by decide)
  | .jp _ => encodedAs_of_dispatch_class (c := 0x1) (by decide) fun fs h => by simp only [dispatch, h, Instr.row]
  | .call _ => encodedAs_of_dispatch_class (c := 0x2) (by decide) fun fs h => by simp only [dispatch, h, Instr.row]
  | .seImm _ _ => encodedAs_seImm
  | .sneImm _ _ => encodedAs_sneImm
  | .seReg _ _ => encodedAs_of_dispatch_class_nibble (c := 0x5) (n := 0) (by decide) (by decide) fun fs h hn => by
      simp only [dispatch, h, Fin.val_eq_zero_iff.mp hn, if_true, Instr.row]
  | .ldImm _ _ => encodedAs_ldImm
  | .addImm _ _ => encodedAs_addImm
  | .ldReg _ _ => encodedAs_ldReg
  | .orReg _ _ => encodedAs_class8 (n := 0x1) (by decide) fun fs h => by simp only [dispatch8, h, Instr.row]
  | .andReg _ _ => encodedAs_class8 (n := 0x2) (by decide) fun fs h => by simp only [dispatch8, h, Instr.row]
  | .xorReg _ _ => encodedAs_class8 (n := 0x3) (by decide) fun fs h => by simp only [dispatch8, h, Instr.row]
  | .addReg _ _ => encodedAs_class8 (n := 0x4) (by decide) fun fs h => by simp only [dispatch8, h, Instr.row]
  | .subReg _ _ => encodedAs_class8 (n := 0x5) (by decide) fun fs h => by simp only [dispatch8, h, Instr.row]
  | .shr _ _ => encodedAs_class8 (n := 0x6) (by decide) fun fs h => by simp only [dispatch8, h, Instr.row]
  | .subnReg _ _ => encodedAs_class8 (n := 0x7) (by decide) fun fs h => by simp only [dispatch8, h, Instr.row]
  | .shl _ _ => encodedAs_class8 (n := 0xE) (by decide) fun fs h => by simp only [dispatch8, h, Instr.row]
  | .sneReg _ _ => encodedAs_of_dispatch_class_nibble (c := 0x9) (n := 0) (by decide) (by decide) fun fs h hn => by
      simp only [dispatch, h, Fin.val_eq_zero_iff.mp hn, if_true, Instr.row]
  | .ldI _ => encodedAs_ldI
  | .jpV0 _ => encodedAs_jpV0
  | .rnd _ _ => encodedAs_of_dispatch_class (c := 0xC) (by decide) fun fs h => by simp only [dispatch, h, Instr.row]
  | .drw _ _ _ => encodedAs_of_dispatch_class (c := 0xD) (by decide) fun fs h => by simp only [dispatch, h, Instr.row]
  | .skp _ => encodedAs_classE (k := 0x9E) (by decide) fun fs h => by simp only [dispatchE, h, Instr.row]
  | .sknp _ => encodedAs_classE (k := 0xA1) (by decide) fun fs h => by simp only [dispatchE, h, Instr.row]
  | .ldVxDt _ => encodedAs_classF (k := 0x07) (by decide) fun fs h => by simp only [dispatchF, h, Instr.row]
  | .ldVxK _ => encodedAs_classF (k := 0x0A) (by decide) fun fs h => by simp only [dispatchF, h, Instr.row]
  | .ldDtVx _ => encodedAs_classF (k := 0x15) (by decide) fun fs h => by simp only [dispatchF, h, Instr.row]
  | .ldStVx _ => encodedAs_classF (k := 0x18) (by decide) fun fs h => by simp only [dispatchF, h, Instr.row]
  | .addI _ => encodedAs_classF (k := 0x1E) (by decide) fun fs h => by simp only [dispatchF, h, Instr.row]
  | .ldF _ => encodedAs_classF (k := 0x29) (by decide) fun fs h => by simp only [dispatchF, h, Instr.row]
  | .ldB _ => encodedAs_classF (k := 0x33) (by decide) fun fs h => by simp only [dispatchF, h, Instr.row]
  | .ldMemVx _ => encodedAs_classF (k := 0x55) (by decide) fun fs h => by simp only [dispatchF, h, Instr.row]
  | .ldVxMem _ => encodedAs_classF (k := 0x65) (by decide) fun fs h => by simp only [dispatchF, h, Instr.row]

/-- Settles O2, row by row; the operand terms only name the row. -/
theorem opcodeMapIsFollowed : Obligations.OpcodeMapIsFollowed :=
  ⟨encodedAs_row .cls, encodedAs_row .ret, encodedAs_row (.jp 0), encodedAs_row (.call 0), encodedAs_row (.seImm 0 0),
    encodedAs_row (.sneImm 0 0), encodedAs_row (.seReg 0 0), encodedAs_row (.ldImm 0 0), encodedAs_row (.addImm 0 0),
    encodedAs_row (.ldReg 0 0), encodedAs_row (.orReg 0 0), encodedAs_row (.andReg 0 0), encodedAs_row (.xorReg 0 0),
    encodedAs_row (.addReg 0 0), encodedAs_row (.subReg 0 0), encodedAs_row (.shr 0 0), encodedAs_row (.subnReg 0 0),
    encodedAs_row (.shl 0 0), encodedAs_row (.sneReg 0 0), encodedAs_row (.ldI 0), encodedAs_row (.jpV0 0),
    encodedAs_row (.rnd 0 0), encodedAs_row (.drw 0 0 0), encodedAs_row (.skp 0), encodedAs_row (.sknp 0),
    encodedAs_row (.ldVxDt 0), encodedAs_row (.ldVxK 0), encodedAs_row (.ldDtVx 0), encodedAs_row (.ldStVx 0),
    encodedAs_row (.addI 0), encodedAs_row (.ldF 0), encodedAs_row (.ldB 0), encodedAs_row (.ldMemVx 0),
    encodedAs_row (.ldVxMem 0)⟩

/-- An instruction's word decodes to it: the word is in the row, and its fields hold the operands. -/
theorem decodeWord_encode (i : Instr) : decodeWord (encode i) = some i :=
  (encodedAs_row i _ (encode_and_tableMask i)).trans (congrArg some (row_fields_encode i))

/-- Decode and encode are inverse to each other on the words that decode. -/
theorem decodeWord_eq_some_iff {w : Word} {i : Instr} : decodeWord w = some i ↔ w = encode i :=
  ⟨fun h => (encode_of_decodeWord h).symm, fun h => h ▸ decodeWord_encode i⟩

/-- Settles O3: the two bytes of a word decode as the word does, and the word of an instruction decodes to the instruction. -/
theorem decodeOfEncodeIsTheInstruction : Obligations.DecodeOfEncodeIsTheInstruction := by
  intro i rest
  rw [decode_bytesOfWord, decodeWord_encode]

/-- Settles O1, word by word through the decoder. -/
theorem decodesSampleWords : Obligations.DecodesSampleWords := by
  unfold Obligations.DecodesSampleWords
  decide

end Sys2Proof.Machine

/-! ### The words that are not implemented

The seven sets of R61 in arithmetic, class by class, against the rows that dispatch selects. -/

namespace Sys2Proof

theorem wellFormedClass0_iff (w : Word) :
    wellFormedClass0 w = true ↔ (w.toNat / 4096 = 0x0 → w.toNat = 0xE0 ∨ w.toNat = 0xEE) := by
  have hc : w &&& 0xF000 = 0x0000 ↔ w.toNat / 4096 = 0x0 := and_F000 w 0x0 (by decide)
  have hcls : w = 0x00E0 ↔ w.toNat = 0xE0 := BitVec.toNat_inj.symm
  have hret : w = 0x00EE ↔ w.toNat = 0xEE := BitVec.toNat_inj.symm
  simp only [wellFormedClass0, Bool.or_eq_true, bne_iff_ne, beq_iff_eq, ne_eq, hc, hcls, hret]
  tauto

theorem wellFormedClass5_iff (w : Word) :
    wellFormedClass5 w = true ↔ (w.toNat / 4096 = 0x5 → w.toNat % 16 = 0) := by
  have hc : w &&& 0xF000 = 0x5000 ↔ w.toNat / 4096 = 0x5 := and_F000 w 0x5 (by decide)
  have hn : w &&& 0x000F = 0 ↔ w.toNat % 16 = 0 := and_000F w 0 (by decide)
  simp only [wellFormedClass5, Bool.or_eq_true, bne_iff_ne, beq_iff_eq, ne_eq, hc, hn]
  tauto

theorem wellFormedClass9_iff (w : Word) :
    wellFormedClass9 w = true ↔ (w.toNat / 4096 = 0x9 → w.toNat % 16 = 0) := by
  have hc : w &&& 0xF000 = 0x9000 ↔ w.toNat / 4096 = 0x9 := and_F000 w 0x9 (by decide)
  have hn : w &&& 0x000F = 0 ↔ w.toNat % 16 = 0 := and_000F w 0 (by decide)
  simp only [wellFormedClass9, Bool.or_eq_true, bne_iff_ne, beq_iff_eq, ne_eq, hc, hn]
  tauto

theorem wellFormedClassB_iff (w : Word) : wellFormedClassB w = true ↔ w.toNat / 4096 ≠ 0xB := by
  have hc : w &&& 0xF000 = 0xB000 ↔ w.toNat / 4096 = 0xB := and_F000 w 0xB (by decide)
  simp only [wellFormedClassB, bne_iff_ne, ne_eq, hc]

theorem wellFormedClass8_iff (w : Word) :
    wellFormedClass8 w = true ↔
      (w.toNat / 4096 = 0x8 → w.toNat % 16 ∈ [0x0, 0x1, 0x2, 0x3, 0x4, 0x5, 0x6, 0x7, 0xE]) := by
  have hc : w &&& 0xF000 = 0x8000 ↔ w.toNat / 4096 = 0x8 := and_F000 w 0x8 (by decide)
  have hn : w &&& 0x000F ∈ [0x0, 0x1, 0x2, 0x3, 0x4, 0x5, 0x6, 0x7, 0xE] ↔
      w.toNat % 16 ∈ [0x0, 0x1, 0x2, 0x3, 0x4, 0x5, 0x6, 0x7, 0xE] := by
    simp only [List.mem_cons, List.not_mem_nil, ← BitVec.toNat_inj, toNat_and_000F]
    rfl
  simp only [wellFormedClass8, Bool.or_eq_true, bne_iff_ne, List.contains_iff_mem, ne_eq, hc, hn]
  tauto

theorem wellFormedClassE_iff (w : Word) :
    wellFormedClassE w = true ↔ (w.toNat / 4096 = 0xE → w.toNat % 256 ∈ [0x9E, 0xA1]) := by
  have hc : w &&& 0xF000 = 0xE000 ↔ w.toNat / 4096 = 0xE := and_F000 w 0xE (by decide)
  have hn : w &&& 0x00FF ∈ [0x9E, 0xA1] ↔ w.toNat % 256 ∈ [0x9E, 0xA1] := by
    simp only [List.mem_cons, List.not_mem_nil, ← BitVec.toNat_inj, toNat_and_00FF]
    rfl
  simp only [wellFormedClassE, Bool.or_eq_true, bne_iff_ne, List.contains_iff_mem, ne_eq, hc, hn]
  tauto

theorem wellFormedClassF_iff (w : Word) :
    wellFormedClassF w = true ↔
      (w.toNat / 4096 = 0xF → w.toNat % 256 ∈ [0x07, 0x0A, 0x15, 0x18, 0x1E, 0x29, 0x33, 0x55, 0x65]) := by
  have hc : w &&& 0xF000 = 0xF000 ↔ w.toNat / 4096 = 0xF := and_F000 w 0xF (by decide)
  have hn : w &&& 0x00FF ∈ [0x07, 0x0A, 0x15, 0x18, 0x1E, 0x29, 0x33, 0x55, 0x65] ↔
      w.toNat % 256 ∈ [0x07, 0x0A, 0x15, 0x18, 0x1E, 0x29, 0x33, 0x55, 0x65] := by
    simp only [List.mem_cons, List.not_mem_nil, ← BitVec.toNat_inj, toNat_and_00FF]
    rfl
  simp only [wellFormedClassF, Bool.or_eq_true, bne_iff_ne, List.contains_iff_mem, ne_eq, hc, hn]
  tauto

/-! What each dispatch by sub-selector accepts: every row it answers is implemented. -/

theorem any_dispatch0_iff (f : Fields) :
    (dispatch0 f).any Instr.implemented = true ↔ f.x = 0 ∧ (f.nn = 0xE0 ∨ f.nn = 0xEE) := by
  unfold dispatch0
  split_ifs with hcls hret
  · exact iff_of_true rfl ⟨hcls.1, .inl hcls.2⟩
  · exact iff_of_true rfl ⟨hret.1, .inr hret.2⟩
  · exact iff_of_false Bool.false_ne_true fun ⟨hx, hnn⟩ => hnn.elim (fun e => hcls ⟨hx, e⟩) fun e => hret ⟨hx, e⟩

theorem any_dispatch8_iff (f : Fields) :
    (dispatch8 f).any Instr.implemented = true ↔ f.n.val ∈ [0x0, 0x1, 0x2, 0x3, 0x4, 0x5, 0x6, 0x7, 0xE] := by
  unfold dispatch8
  split <;> simp_all [Instr.implemented]

theorem any_dispatchE_iff (f : Fields) :
    (dispatchE f).any Instr.implemented = true ↔ f.nn.toNat ∈ [0x9E, 0xA1] := by
  unfold dispatchE
  split <;> simp_all [Instr.implemented]

theorem any_dispatchF_iff (f : Fields) :
    (dispatchF f).any Instr.implemented = true ↔
      f.nn.toNat ∈ [0x07, 0x0A, 0x15, 0x18, 0x1E, 0x29, 0x33, 0x55, 0x65] := by
  unfold dispatchF
  split <;> simp_all [Instr.implemented]

/-- The two words of class 0x0 that R60 lists, by fields. -/
theorem class0_iff {w : Word} (hc : (fields w).cls.val = 0) :
    w.toNat = 0xE0 ∨ w.toNat = 0xEE ↔ (fields w).x = 0 ∧ ((fields w).nn = 0xE0 ∨ (fields w).nn = 0xEE) := by
  have hx : (fields w).x = 0 ↔ w.toNat / 256 % 16 = 0 := by rw [← Fin.val_eq_zero_iff, fields_x_val]
  have hE0 : (fields w).nn = 0xE0 ↔ w.toNat % 256 = 0xE0 := by rw [← fields_nn_toNat]; exact BitVec.toNat_inj.symm
  have hEE : (fields w).nn = 0xEE ↔ w.toNat % 256 = 0xEE := by rw [← fields_nn_toNat]; exact BitVec.toNat_inj.symm
  rw [fields_cls_val] at hc
  rw [hx, hE0, hEE]
  omega

/-- A word is implemented exactly when it decodes to an implemented operation: the sets of R61, written by mask, against the
decoder. -/
theorem wellFormedWord_eq (w : Word) : wellFormedWord w = (decodeWord w).any Instr.implemented := by
  rw [Bool.eq_iff_iff]
  simp only [wellFormedWord, Bool.and_eq_true, wellFormedClass0_iff, wellFormedClass5_iff, wellFormedClass8_iff,
    wellFormedClass9_iff, wellFormedClassB_iff, wellFormedClassE_iff, wellFormedClassF_iff]
  unfold decodeWord dispatch
  split
  case h_17 =>
    have hlt := (fields w).cls.isLt
    interval_cases (fields w).cls.val <;> contradiction
  case h_1 hc =>
    rw [any_dispatch0_iff, ← class0_iff hc]
    simp [← fields_cls_val, hc]
  case h_9 hc =>
    rw [any_dispatch8_iff, fields_n_val]
    simp [← fields_cls_val, hc]
  case h_15 hc =>
    rw [any_dispatchE_iff, fields_nn_toNat]
    simp [← fields_cls_val, hc]
  case h_16 hc =>
    rw [any_dispatchF_iff, fields_nn_toNat]
    simp [← fields_cls_val, hc]
  case h_6 hc | h_10 hc =>
    have hn : (fields w).n = 0 ↔ w.toNat % 16 = 0 := by rw [← Fin.val_eq_zero_iff, fields_n_val]
    rw [← fields_cls_val, hc]
    by_cases h : w.toNat % 16 = 0 <;> simp [Instr.implemented, hn, h]
  all_goals
    rename_i hc
    rw [← fields_cls_val, hc]
    simp [Instr.implemented]

/-- Settles O5: both clauses read off that the check by masks is the decoder's answer, `Bnnn` being the one row that is listed and
not implemented. -/
theorem unimplementedWordsAreTheSevenSets : Obligations.UnimplementedWordsAreTheSevenSets := by
  intro w
  rw [wellFormedWord_eq]
  cases decodeWord w with
  | none => simp
  | some i => cases i <;> simp [Instr.implemented]

end Sys2Proof

/-! ## Effects: what an instruction reads, apart from what it writes (40_step_cycle.md R72, R76)

An instruction determines an effect from what it reads (`Instr.effect`), and the effect acts on the core's state (`Effect.apply`).
`exec_eq` says that this is the execute phase. So what an instruction leaves unchanged is a statement about sixteen effects, and
what it does not read is a statement about `Instr.effect` alone. -/

namespace Sys2Proof.Machine

/-- What an instruction or a waiting step does to the core's state, with every value computed. -/
inductive Effect where
  /-- PC becomes nnn (R78). -/
  | jump (nnn : Addr12)
  /-- PC advances by 2 when the skip is taken (R86). -/
  | skip (taken : Bool)
  /-- PC is pushed into the free slot k and becomes nnn (R79). -/
  | call (k : Fin 16) (nnn : Addr12)
  /-- The occupied slot k on top is popped into PC (R77). -/
  | ret (k : Fin 16)
  | setReg (x : RegIdx) (b : Byte)
  /-- A result and then its flag (R87). -/
  | setRegFlag (x : RegIdx) (result flag : Byte)
  | setI (a : Word)
  | setDt (b : Byte)
  | setSt (b : Byte)
  | setFb (fb : Framebuffer)
  /-- The framebuffer and then the flag (R111). -/
  | draw (fb : Framebuffer) (flag : Byte)
  | store (a : Nat) (bytes : List Byte)
  /-- The bytes go to V0 and on (R107). -/
  | load (bytes : List Byte)
  /-- The step ends waiting, with this latch (R118, R119). -/
  | wait (w : KeyWait)
  /-- A key number goes to Vx and the latch is cleared (R119). -/
  | wake (x : RegIdx) (b : Byte)
  | raise (e : ErrorKind)

/-- The register file with the bytes in V0 and on (R107). Irreducible, so that the sixteen registers are not computed where the
register file is not looked at. -/
@[irreducible] def loadRegs (bytes : List Byte) (v : Vector Byte 16) : Vector Byte 16 :=
  Vector.ofFn fun k : Fin 16 => bytes[k.val]?.getD (v.get k)

/-- The core's state after an effect. -/
def Effect.onCore : Effect → CoreState → CoreState
  | .jump nnn, c => { c with pc := zext16 nnn }
  | .skip taken, c => { c with pc := if taken then c.pc + 2 else c.pc }
  | .call k nnn, c => { c with stack := c.stack.set k.val c.pc k.isLt, sp := k.succ, pc := zext16 nnn }
  | .ret k, c => { c with sp := k.castSucc, pc := c.stack.get k }
  | .setReg x b, c => { c with v := c.v.set x.val b x.isLt }
  | .setRegFlag x b f, c => { c with v := (c.v.set x.val b x.isLt).set flagReg.val f flagReg.isLt }
  | .setI a, c => { c with i := a }
  | .setDt b, c => { c with dt := b }
  | .setSt b, c => { c with st := b }
  | .setFb fb, c => { c with fb := fb }
  | .draw fb f, c => { c with fb := fb, v := c.v.set flagReg.val f flagReg.isLt }
  | .store a bytes, c => { c with mem := c.mem.writeBytes a bytes }
  | .load bytes, c => { c with v := loadRegs bytes c.v }
  | .wait w, c => { c with wait := some w }
  | .wake x b, c => { c with v := c.v.set x.val b x.isLt, wait := none }
  | .raise _, c => c

/-- What the step returns (R12). -/
def Effect.outcome : Effect → StepOutcome
  | .wait _  => .waitingForKey
  | .raise e => .error e
  | .jump _ | .skip _ | .call _ _ | .ret _ | .setReg _ _ | .setRegFlag _ _ _ | .setI _ | .setDt _ | .setSt _ => .completed
  | .setFb _ | .draw _ _ | .store _ _ | .load _ | .wake _ _ => .completed

/-- What joins the record of errors (D16). -/
def Effect.recorded (E : Effect) : List ErrorKind :=
  match E.outcome with
  | .error e => [e]
  | .completed | .waitingForKey => []

/-- The state after an effect. -/
def Effect.apply (E : Effect) (s : State) : State :=
  { s with toCoreState := E.onCore s.toCoreState, outcome := some E.outcome, errorLog := E.recorded ++ s.errorLog }

@[simp] theorem Effect.apply_outcome (E : Effect) (s : State) : (E.apply s).outcome = some E.outcome := rfl
@[simp] theorem Effect.apply_errorLog (E : Effect) (s : State) : (E.apply s).errorLog = E.recorded ++ s.errorLog := rfl

/-- An effect writes none of the step's inputs (R140). -/
theorem Effect.apply_sameInputs (E : Effect) (s : State) : s.sameInputs (E.apply s) := ⟨rfl, rfl, rfl⟩

/-- An effect that ends with an error is a raise. -/
theorem Effect.eq_raise_of_outcome {E : Effect} {e : ErrorKind} (h : E.outcome = .error e) : E = .raise e := by
  cases E <;> cases h
  rfl

/-! ### The effect of an instruction -/

/-- A store at I, complete or not at all (R37). -/
def State.storeEffect (s : State) (bytes : List Byte) : Effect :=
  if inBounds (s.indexed 0) bytes.length then .store (s.indexed 0) bytes else .raise .memoryBounds

/-- A load from I, complete or not at all (R36). -/
def State.loadEffect (s : State) (n : Nat) : Effect := (s.memRead (s.indexed 0) n).elim (.raise .memoryBounds) .load

/-- A pop of the call stack into PC (R77). -/
def State.retEffect (s : State) : Effect :=
  if h : s.sp.val = 0 then .raise .stackUnderflow else .ret ⟨s.sp.val - 1, by omega⟩

/-- A push of PC and a jump (R79). -/
def State.callEffect (s : State) (nnn : Addr12) : Effect :=
  if h : s.sp.val < 16 then .call ⟨s.sp.val, h⟩ nnn else .raise .stackOverflow

/-- A skip on a key (R115). -/
def State.skipOnKeyEffect (s : State) (x : RegIdx) (pressed : Bool) : Effect :=
  (keyIndex (s.reg x)).elim (.raise .keyIndex) fun k => .skip (s.keys.get k == pressed)

/-- The begin of a key wait in each mode (R118). -/
def State.keyWaitEffect (mode : KeywaitMode) (x : RegIdx) (s : State) : Effect :=
  match mode with
  | .edge  => .wait ⟨x, s.keys⟩
  | .level => (leastKey s.keys).elim (.wait ⟨x, s.keys⟩) fun k => .setReg x (keyNumber k)

/-- What the draw loop makes of the framebuffer and the collision flag, for the sprite of these rows at the origin in Vx and Vy
(R111). -/
def State.drawn (s : State) (x y : RegIdx) (rows : List Byte) : Framebuffer × Bool :=
  drawRows (originColumn (s.reg x)) (originRow (s.reg y)) rows (s.fb, false)

/-- A draw, complete or not at all (R111, R114). -/
def State.drawEffect (s : State) (x y : RegIdx) (n : Fin 16) : Effect :=
  (s.spriteRows n).elim (.raise .memoryBounds) fun rows => .draw (s.drawn x y rows).1 (flagByte (s.drawn x y rows).2)

end Sys2Proof.Machine

namespace Sys2Proof

open Machine

/-- The effect an instruction has in a state; nothing but this reads the state. -/
def Instr.effect (s : State) : Instr → Effect
  | .cls         => .setFb clearFramebuffer
  | .ret         => s.retEffect
  | .jp nnn      => .jump nnn
  | .call nnn    => s.callEffect nnn
  | .seImm x kk  => .skip (s.reg x == kk)
  | .sneImm x kk => .skip (s.reg x != kk)
  | .seReg x y   => .skip (s.reg x == s.reg y)
  | .sneReg x y  => .skip (s.reg x != s.reg y)
  | .ldImm x kk  => .setReg x kk
  | .addImm x kk => .setReg x (s.reg x + kk)
  | .ldReg x y   => .setReg x (s.reg y)
  | .orReg x y   => .setReg x (s.reg x ||| s.reg y)
  | .andReg x y  => .setReg x (s.reg x &&& s.reg y)
  | .xorReg x y  => .setReg x (s.reg x ^^^ s.reg y)
  | .addReg x y  => .setRegFlag x (s.reg x + s.reg y) (carryFlag (s.reg x) (s.reg y))
  | .subReg x y  => .setRegFlag x (s.reg x - s.reg y) (greaterFlag (s.reg x) (s.reg y))
  | .shr x _     => .setRegFlag x (s.reg x >>> 1) (shiftRightFlag (s.reg x))
  | .subnReg x y => .setRegFlag x (s.reg y - s.reg x) (greaterFlag (s.reg y) (s.reg x))
  | .shl x _     => .setRegFlag x (s.reg x <<< 1) (shiftLeftFlag (s.reg x))
  | .ldI nnn     => .setI (zext16 nnn)
  | .jpV0 _      => .raise .unimplementedOpcode
  | .rnd x kk    => .setReg x (s.rand8 &&& kk)
  | .drw x y n   => s.drawEffect x y n
  | .skp x       => s.skipOnKeyEffect x true
  | .sknp x      => s.skipOnKeyEffect x false
  | .ldVxDt x    => .setReg x s.dt
  | .ldVxK x     => s.keyWaitEffect Config.keywaitMode x
  | .ldDtVx x    => .setDt (s.reg x)
  | .ldStVx x    => .setSt (s.reg x)
  | .addI x      => .setI (s.i + (s.reg x).setWidth 16)
  | .ldF x       => .setI (glyphAddress (s.reg x))
  | .ldB x       => s.storeEffect (decimalDigits (s.reg x))
  | .ldMemVx x   => s.storeEffect (s.regBlock x)
  | .ldVxMem x   => s.loadEffect (x.val + 1)

end Sys2Proof

namespace Sys2Proof.Machine

/-! ### The effects are the model's operations -/

theorem State.storeAtI_eq (s : State) (bytes : List Byte) : s.storeAtI bytes = (s.storeEffect bytes).apply s := by
  unfold State.storeAtI State.storeEffect State.memWrite
  split_ifs <;> rfl

theorem State.skipIf_completed_eq (s : State) (c : Bool) : (s.skipIf c).completed = (Effect.skip c).apply s := by
  cases c <;> rfl

theorem State.skipOnKey_eq (s : State) (x : RegIdx) (pressed : Bool) :
    s.skipOnKey x pressed = (s.skipOnKeyEffect x pressed).apply s := by
  unfold State.skipOnKey State.skipOnKeyEffect
  cases keyIndex (s.reg x) with
  | none => rfl
  | some k => exact s.skipIf_completed_eq _

theorem State.beginKeyWait_eq (mode : KeywaitMode) (x : RegIdx) (s : State) :
    s.beginKeyWait mode x = (s.keyWaitEffect mode x).apply s := by
  unfold State.beginKeyWait State.keyWaitEffect
  cases mode with
  | edge => rfl
  | level => cases leastKey s.keys <;> rfl

theorem execRet_eq (s : State) : execRet s = .next (s.retEffect.apply s) := by
  unfold execRet State.retEffect
  by_cases h : s.sp.val = 0
  · rw [State.pop_eq_none s h, dif_pos h]
    rfl
  · rw [State.pop_eq_some s h, dif_neg h]
    rfl

theorem execCall_eq (nnn : Addr12) (s : State) : execCall nnn s = .next ((s.callEffect nnn).apply s) := by
  unfold execCall State.callEffect
  by_cases h : s.sp.val < 16
  · rw [State.push_eq_some s _ h, dif_pos h]
    rfl
  · rw [State.push_eq_none s _ (by omega), dif_neg h]
    rfl

theorem execDrw_eq (x y : RegIdx) (n : Fin 16) (s : State) : execDrw x y n s = .next ((s.drawEffect x y n).apply s) := by
  unfold execDrw State.drawEffect
  cases s.spriteRows n <;> rfl

theorem State.setRegBlock_eq (s : State) (bytes : List Byte) : s.setRegBlock bytes = s.withV (loadRegs bytes s.v) := by
  unfold loadRegs
  rfl

theorem Effect.apply_load (bytes : List Byte) (s : State) : (Effect.load bytes).apply s = (s.setRegBlock bytes).completed := by
  rw [State.setRegBlock_eq]
  rfl

theorem execLdVxMem_eq (x : RegIdx) (s : State) : execLdVxMem x s = .next ((s.loadEffect (x.val + 1)).apply s) := by
  unfold execLdVxMem State.loadEffect
  cases s.memRead (s.indexed 0) (x.val + 1) with
  | none => rfl
  | some bytes => exact congrArg Host.Outcome.next (Effect.apply_load bytes s).symm

/-- The execute phase is the effect of the instruction (R72). -/
theorem exec_eq (i : Instr) (s : State) : exec i s = .next ((i.effect s).apply s) := by
  cases i with
  | ret => exact execRet_eq s
  | call nnn => exact execCall_eq nnn s
  | drw x y n => exact execDrw_eq x y n s
  | ldVxMem x => exact execLdVxMem_eq x s
  | ldB x => exact congrArg Host.Outcome.next (s.storeAtI_eq _)
  | ldMemVx x => exact congrArg Host.Outcome.next (s.storeAtI_eq _)
  | skp x => exact congrArg Host.Outcome.next (s.skipOnKey_eq x true)
  | sknp x => exact congrArg Host.Outcome.next (s.skipOnKey_eq x false)
  | ldVxK x => exact congrArg Host.Outcome.next (s.beginKeyWait_eq _ x)
  | seImm x kk => exact congrArg Host.Outcome.next (s.skipIf_completed_eq _)
  | sneImm x kk => exact congrArg Host.Outcome.next (s.skipIf_completed_eq _)
  | seReg x y => exact congrArg Host.Outcome.next (s.skipIf_completed_eq _)
  | sneReg x y => exact congrArg Host.Outcome.next (s.skipIf_completed_eq _)
  | _ => rfl

/-- The state an instruction answers is the one its effect makes. -/
theorem eq_apply_of_exec {i : Instr} {s t : State} (h : exec i s = .next t) : t = (i.effect s).apply s := by
  rw [exec_eq] at h
  exact (Host.Outcome.next.inj h).symm

/-! ### What an instruction's effect may be -/

/-- The effects that R15 to R25 and R41 let an instruction have in a state, with what is known of their values. -/
def Effect.AllowedFor (i : Instr) (s : State) : Effect → Prop
  | .jump _ | .skip _ => i.writesPc = true
  | .call k nnn => i = .call nnn ∧ s.sp = k.castSucc
  | .ret k => i = .ret ∧ s.sp = k.succ
  | .setReg x _ => i.hasDestination x = true
  | .setRegFlag x _ _ => i.hasDestination x = true ∧ i.writesFlag = true
  | .setI _ => i.writesIndex = true
  | .setDt _ => ∃ x, i = .ldDtVx x
  | .setSt _ => ∃ x, i = .ldStVx x
  | .setFb _ => i = .cls
  | .draw _ _ => ∃ x y n, i = .drw x y n
  | .store a bytes => a = s.indexed 0 ∧ bytes.length = i.storeLength ∧ a + bytes.length ≤ 0x1000
  | .load bytes => ∃ x, i = .ldVxMem x ∧ bytes.length = x.val + 1
  | .wait w => i = .ldVxK w.x
  | .wake _ _ => False
  | .raise e => e ≠ .programTooLarge

theorem State.storeEffect_allowed {i : Instr} (s : State) {bytes : List Byte} (h : bytes.length = i.storeLength) :
    (s.storeEffect bytes).AllowedFor i s := by
  unfold State.storeEffect
  split_ifs with hb
  · exact ⟨rfl, h, hb⟩
  · exact ErrorKind.noConfusion

theorem State.skipOnKeyEffect_allowed {i : Instr} (s : State) (x : RegIdx) (pressed : Bool) (h : i.writesPc = true) :
    (s.skipOnKeyEffect x pressed).AllowedFor i s := by
  unfold State.skipOnKeyEffect
  cases keyIndex (s.reg x) with
  | none => exact ErrorKind.noConfusion
  | some k => exact h

theorem State.keyWaitEffect_allowed (mode : KeywaitMode) (x : RegIdx) (s : State) :
    (s.keyWaitEffect mode x).AllowedFor (.ldVxK x) s := by
  unfold State.keyWaitEffect
  cases mode with
  | edge => exact rfl
  | level =>
    cases leastKey s.keys with
    | none => exact rfl
    | some k => exact beq_self_eq_true x

theorem State.retEffect_allowed (s : State) : s.retEffect.AllowedFor .ret s := by
  unfold State.retEffect
  split_ifs with h
  · exact ErrorKind.noConfusion
  · refine ⟨rfl, Fin.ext ?_⟩
    show s.sp.val = s.sp.val - 1 + 1
    omega

theorem State.callEffect_allowed (s : State) (nnn : Addr12) : (s.callEffect nnn).AllowedFor (.call nnn) s := by
  unfold State.callEffect
  split_ifs with h
  · exact ⟨rfl, rfl⟩
  · exact ErrorKind.noConfusion

theorem State.drawEffect_allowed (s : State) (x y : RegIdx) (n : Fin 16) :
    (s.drawEffect x y n).AllowedFor (.drw x y n) s := by
  unfold State.drawEffect
  cases s.spriteRows n with
  | none => exact ErrorKind.noConfusion
  | some rows => exact ⟨x, y, n, rfl⟩

theorem State.loadEffect_allowed (s : State) (x : RegIdx) : (s.loadEffect (x.val + 1)).AllowedFor (.ldVxMem x) s := by
  unfold State.loadEffect State.memRead
  split_ifs with h
  · exact ⟨x, rfl, Memory.readBytes_length _ _ _⟩
  · exact ErrorKind.noConfusion

/-- The frame of every instruction, said once (R76). -/
theorem effect_allowed (i : Instr) (s : State) : (i.effect s).AllowedFor i s := by
  cases i with
  | ret => exact s.retEffect_allowed
  | call nnn => exact s.callEffect_allowed nnn
  | drw x y n => exact s.drawEffect_allowed x y n
  | ldVxMem x => exact s.loadEffect_allowed x
  | ldB x => exact s.storeEffect_allowed rfl
  | ldMemVx x => exact s.storeEffect_allowed (s.regBlock_length x)
  | skp x => exact s.skipOnKeyEffect_allowed x true rfl
  | sknp x => exact s.skipOnKeyEffect_allowed x false rfl
  | ldVxK x => exact s.keyWaitEffect_allowed _ x
  | ldDtVx x => exact ⟨x, rfl⟩
  | ldStVx x => exact ⟨x, rfl⟩
  | jpV0 nnn => exact ErrorKind.noConfusion
  | _ => simp [Instr.effect, Effect.AllowedFor, Instr.hasDestination, Instr.writesFlag, Instr.writesPc, Instr.writesIndex]

end Sys2Proof.Machine

/-! ## Frames: what every instruction leaves unchanged (R76)

Each frame goes through the effects: an effect that writes the element is one that only the named instructions may have. -/

namespace Sys2Proof.Machine

theorem ne_of_hasDestination {i : Instr} {x r : RegIdx} (hx : i.hasDestination x = true) (hr : i.hasDestination r = false) :
    r ≠ x := by
  rintro rfl
  exact Bool.false_ne_true (hr.symm.trans hx)

/-- A register that is no destination, and is not VF where VF is written as a flag, keeps its value. -/
theorem Effect.reg_apply_of_not_destination {E : Effect} {i : Instr} {s : State} {r : RegIdx} (ha : E.AllowedFor i s)
    (hr : i.hasDestination r = false) (hf : i.writesFlag = true → r ≠ flagReg) : (E.apply s).reg r = s.reg r := by
  cases E with
  | setReg x b => exact (s.reg_setReg x r b).trans (if_neg (ne_of_hasDestination ha hr))
  | setRegFlag x b f =>
    obtain ⟨hx, hflag⟩ := ha
    exact (s.reg_setRegFlag x r b f).trans ((if_neg (hf hflag)).trans (if_neg (ne_of_hasDestination hx hr)))
  | draw fb f =>
    obtain ⟨x, y, n, rfl⟩ := ha
    exact (s.reg_setReg flagReg r f).trans (if_neg (hf rfl))
  | load bytes =>
    obtain ⟨x, rfl, hlen⟩ := ha
    have hxr : x.val < r.val := by simpa [Instr.hasDestination] using hr
    have hpast : bytes[r.val]? = none := List.getElem?_eq_none (by omega)
    rw [Effect.apply_load, State.reg_completed, State.reg_setRegBlock, hpast]
    rfl
  | wake => exact ha.elim
  | _ => rfl

/-- Settles O21 by the frame of the effects. -/
theorem registersOutsideTheDestinationAreUnchanged : Obligations.RegistersOutsideTheDestinationAreUnchanged := by
  intro i s t r h hr hf
  rw [eq_apply_of_exec h]
  exact Effect.reg_apply_of_not_destination (effect_allowed i s) hr hf

/-- Settles O22: a store is the one effect that writes memory, and it writes its own bytes only. -/
theorem memoryOutsideTheStoredBytesIsUnchanged : Obligations.MemoryOutsideTheStoredBytesIsUnchanged := by
  intro i s t a h ha
  rw [eq_apply_of_exec h]
  have hallowed := effect_allowed i s
  generalize i.effect s = E at hallowed ⊢
  cases E with
  | store b bytes =>
    obtain ⟨rfl, hlen, -⟩ := hallowed
    exact Memory.read_writeBytes_outside _ _ _ _ (hlen ▸ ha)
  | _ => rfl

theorem Effect.i_apply_of_not_writesIndex {E : Effect} {i : Instr} {s : State} (ha : E.AllowedFor i s)
    (h : i.writesIndex = false) : (E.apply s).i = s.i := by
  cases E with
  | setI a => exact absurd (h.symm.trans ha) Bool.false_ne_true
  | _ => rfl

theorem Effect.dt_apply {E : Effect} (h : ∀ b, E ≠ .setDt b) (s : State) : (E.apply s).dt = s.dt := by
  cases E with
  | setDt b => exact absurd rfl (h b)
  | _ => rfl

theorem Effect.st_apply {E : Effect} (h : ∀ b, E ≠ .setSt b) (s : State) : (E.apply s).st = s.st := by
  cases E with
  | setSt b => exact absurd rfl (h b)
  | _ => rfl

theorem Effect.fb_apply {E : Effect} (hset : ∀ fb, E ≠ .setFb fb) (hdraw : ∀ fb f, E ≠ .draw fb f) (s : State) :
    (E.apply s).fb = s.fb := by
  cases E with
  | setFb fb => exact absurd rfl (hset fb)
  | draw fb f => exact absurd rfl (hdraw fb f)
  | _ => rfl

/-! The one instruction behind each of these effects. -/

theorem effect_ne_setDt {i : Instr} (h : ∀ x, i ≠ .ldDtVx x) (s : State) (b : Byte) : i.effect s ≠ .setDt b := by
  intro he
  obtain ⟨x, hx⟩ : (Effect.setDt b).AllowedFor i s := he ▸ effect_allowed i s
  exact h x hx

theorem effect_ne_setSt {i : Instr} (h : ∀ x, i ≠ .ldStVx x) (s : State) (b : Byte) : i.effect s ≠ .setSt b := by
  intro he
  obtain ⟨x, hx⟩ : (Effect.setSt b).AllowedFor i s := he ▸ effect_allowed i s
  exact h x hx

theorem effect_ne_setFb {i : Instr} (h : i ≠ .cls) (s : State) (fb : Framebuffer) : i.effect s ≠ .setFb fb := by
  intro he
  have hcls : (Effect.setFb fb).AllowedFor i s := he ▸ effect_allowed i s
  exact h hcls

theorem effect_ne_draw {i : Instr} (h : ∀ x y n, i ≠ .drw x y n) (s : State) (fb : Framebuffer) (f : Byte) :
    i.effect s ≠ .draw fb f := by
  intro he
  obtain ⟨x, y, n, hi⟩ : (Effect.draw fb f).AllowedFor i s := he ▸ effect_allowed i s
  exact h x y n hi

/-- Settles O23, element by element. -/
theorem indexTimersAndFramebufferFrame : Obligations.IndexTimersAndFramebufferFrame := by
  intro i s t h
  rw [eq_apply_of_exec h]
  exact ⟨fun hi => Effect.i_apply_of_not_writesIndex (effect_allowed i s) hi,
    fun hdt => Effect.dt_apply (effect_ne_setDt hdt s) s, fun hst => Effect.st_apply (effect_ne_setSt hst s) s,
    fun hcls hdrw => Effect.fb_apply (effect_ne_setFb hcls s) (effect_ne_draw hdrw s) s⟩

/-- Settles O24: only the effects of a call and a return touch SP, and of these only the call writes a slot. -/
theorem stackIsWrittenOnlyByCallAndReturn : Obligations.StackIsWrittenOnlyByCallAndReturn := by
  intro i s t h
  rw [eq_apply_of_exec h]
  have hallowed := effect_allowed i s
  generalize i.effect s = E at hallowed ⊢
  cases E with
  | call k nnn =>
    obtain ⟨hi, -⟩ := hallowed
    exact ⟨fun hcall => absurd hi (hcall nnn), fun hcall => absurd hi (hcall nnn)⟩
  | ret k =>
    obtain ⟨hi, -⟩ := hallowed
    exact ⟨fun _ => rfl, fun _ hret => absurd hi hret⟩
  | _ => exact ⟨fun _ => rfl, fun _ _ => rfl⟩

theorem Effect.pc_apply_of_not_writesPc {E : Effect} {i : Instr} {s : State} (ha : E.AllowedFor i s)
    (h : i.writesPc = false) : (E.apply s).pc = s.pc := by
  cases E with
  | jump nnn => exact absurd (h.symm.trans ha) Bool.false_ne_true
  | skip taken => exact absurd (h.symm.trans ha) Bool.false_ne_true
  | call k nnn =>
    obtain ⟨rfl, -⟩ := ha
    exact absurd h.symm Bool.false_ne_true
  | ret k =>
    obtain ⟨rfl, -⟩ := ha
    exact absurd h.symm Bool.false_ne_true
  | _ => rfl

theorem Effect.wait_apply_of_ne_ldVxK {E : Effect} {i : Instr} {s : State} (ha : E.AllowedFor i s)
    (h : ∀ x, i ≠ .ldVxK x) : (E.apply s).wait = s.wait := by
  cases E with
  | wait w => exact absurd ha (h w.x)
  | wake x b => exact ha.elim
  | _ => rfl

/-- Settles O25; no effect touches the inputs. -/
theorem pcWaitAndInputsFrame : Obligations.PcWaitAndInputsFrame := by
  intro i s t h
  rw [eq_apply_of_exec h]
  exact ⟨fun hpc => Effect.pc_apply_of_not_writesPc (effect_allowed i s) hpc,
    fun hk => Effect.wait_apply_of_ne_ldVxK (effect_allowed i s) hk, (i.effect s).apply_sameInputs s⟩

end Sys2Proof.Machine

/-! ## The step as an effect (40_step_cycle.md R67 to R74, R119)

Whatever a step does, it is one effect on the sampled state or on the post-fetch state. -/

namespace Sys2Proof.Machine

/-- The post-fetch state of a step: its inputs sampled, PC advanced by 2 (R67, R68). -/
def State.fetched (s : State) (keys : Keys) (rand8 : Byte) : State := (s.sample keys rand8).withPc (s.pc + 2)

/-- The effect of a waiting step on this sample of the keys (R119). -/
def KeyWait.effect (mode : KeywaitMode) (w : KeyWait) (keys : Keys) : Effect :=
  match mode with
  | .edge  => (leastNewKey keys w.prev).elim (.wait ⟨w.x, keys⟩) fun k => .wake w.x (keyNumber k)
  | .level => (leastKey keys).elim (.wait w) fun k => .wake w.x (keyNumber k)

/-- A waiting step goes on waiting or is woken by a key (R119). -/
theorem KeyWait.effect_cases (mode : KeywaitMode) (w : KeyWait) (keys : Keys) :
    (∃ w', w.effect mode keys = .wait w') ∨ ∃ k, w.effect mode keys = .wake w.x (keyNumber k) := by
  unfold KeyWait.effect
  cases mode with
  | edge =>
    cases leastNewKey keys w.prev with
    | none => exact .inl ⟨_, rfl⟩
    | some k => exact .inr ⟨k, rfl⟩
  | level =>
    cases leastKey keys with
    | none => exact .inl ⟨_, rfl⟩
    | some k => exact .inr ⟨k, rfl⟩

/-- Waiting on with the latch as it is: the core's state is unchanged (R119, `level`). -/
theorem State.waiting_eq {s : State} {w : KeyWait} (h : s.wait = some w) : s.waiting = (Effect.wait w).apply s := by
  have hcore : { s.toCoreState with wait := some w } = s.toCoreState := by rw [← h]
  exact State.ext_core hcore.symm rfl rfl rfl rfl rfl

/-- The waiting step is the effect of its latch. -/
theorem State.waitStep_eq {s : State} {w : KeyWait} (mode : KeywaitMode) (h : s.wait = some w) :
    s.waitStep mode w = (w.effect mode s.keys).apply s := by
  unfold State.waitStep KeyWait.effect
  cases mode with
  | edge => cases leastNewKey s.keys w.prev <;> rfl
  | level =>
    cases leastKey s.keys with
    | none => exact State.waiting_eq h
    | some k => rfl

/-- A step that fetches finds both bytes of its word in memory (R69). -/
theorem State.Fetches.pc_le {s : State} {w : Word} (h : s.Fetches w) : s.pc.toNat + 1 ≤ 0xFFF := h.2.1

/-! ### One law per phase of the cycle -/

theorem stepWith_waits {s : State} {w : KeyWait} (h : s.wait = some w) (keys : Keys) (rand8 : Byte) :
    stepWith keys rand8 s = .next ((w.effect Config.keywaitMode keys).apply (s.sample keys rand8)) :=
  (State.cycle_waiting (s := s.sample keys rand8) h).trans
    (congrArg Host.Outcome.next (State.waitStep_eq (s := s.sample keys rand8) _ h))

theorem stepWith_fetch_fails {s : State} (h : s.wait = none) (hpc : 0xFFF < s.pc.toNat + 1) (keys : Keys) (rand8 : Byte) :
    stepWith keys rand8 s = .next ((Effect.raise .memoryBounds).apply (s.sample keys rand8)) :=
  State.cycle_fetch_fails (s := s.sample keys rand8) h hpc

theorem stepWith_rejects {s : State} {w : Word} (h : s.Fetches w) (hd : decodeWord w = none) (keys : Keys) (rand8 : Byte) :
    stepWith keys rand8 s = .next ((Effect.raise .unimplementedOpcode).apply (s.fetched keys rand8)) :=
  State.cycle_rejects ((State.fetches_sample keys rand8).mpr h) hd

theorem stepWith_runs {s : State} {w : Word} {i : Instr} (h : s.Fetches w) (hd : decodeWord w = some i) (keys : Keys)
    (rand8 : Byte) :
    stepWith keys rand8 s = .next ((i.effect (s.fetched keys rand8)).apply (s.fetched keys rand8)) :=
  (stepWith_executes keys rand8 h hd).trans (exec_eq i (s.fetched keys rand8))

/-- Everything a step can do, for all inputs at once. -/
theorem State.phase_cases (s : State) :
    (∃ w, s.wait = some w) ∨ (s.wait = none ∧ 0xFFF < s.pc.toNat + 1) ∨
    (s.Fetches s.wordAtPc ∧ decodeWord s.wordAtPc = none) ∨
    ∃ i, s.Fetches s.wordAtPc ∧ decodeWord s.wordAtPc = some i := by
  obtain ⟨w, hw, -⟩ | ⟨hw, hpc, -⟩ | ⟨hf, hd, -⟩ | ⟨i, hf, hd, -⟩ := s.cycle_cases
  · exact .inl ⟨w, hw⟩
  · exact .inr (.inl ⟨hw, hpc⟩)
  · exact .inr (.inr (.inl ⟨hf, hd⟩))
  · exact .inr (.inr (.inr ⟨i, hf, hd⟩))

/-- Two answers of one step are the same state. -/
theorem eq_of_next_eq {r : Result} {t u : State} (ht : r = .next t) (hu : r = .next u) : t = u :=
  Host.Outcome.next.inj (ht.symm.trans hu)

/-- No effect of an instruction is ProgramTooLarge. -/
theorem effect_ne_programTooLarge (i : Instr) (s : State) : i.effect s ≠ .raise .programTooLarge := by
  intro h
  have hne : (Effect.raise .programTooLarge).AllowedFor i s := h ▸ effect_allowed i s
  exact hne rfl

theorem KeyWait.effect_ne_raise (mode : KeywaitMode) (w : KeyWait) (keys : Keys) (e : ErrorKind) :
    w.effect mode keys ≠ .raise e := by
  obtain ⟨w', h⟩ | ⟨k, h⟩ := w.effect_cases mode keys <;> rw [h] <;> exact Effect.noConfusion

/-- A step answers a next state: one effect, never ProgramTooLarge, on a state with the record of errors as it was (R125,
R130). -/
theorem stepWith_eq_apply (s : State) (keys : Keys) (rand8 : Byte) :
    ∃ (E : Effect) (u : State), stepWith keys rand8 s = .next (E.apply u) ∧ E ≠ .raise .programTooLarge ∧
      u.errorLog = s.errorLog := by
  obtain ⟨w, hw⟩ | ⟨hw, hpc⟩ | ⟨hf, hd⟩ | ⟨i, hf, hd⟩ := s.phase_cases
  · exact ⟨_, _, stepWith_waits hw keys rand8, w.effect_ne_raise _ keys _, rfl⟩
  · exact ⟨_, _, stepWith_fetch_fails hw hpc keys rand8, nofun, rfl⟩
  · exact ⟨_, _, stepWith_rejects hf hd keys rand8, nofun, rfl⟩
  · exact ⟨_, _, stepWith_runs hf hd keys rand8, effect_ne_programTooLarge i _, rfl⟩

/-! ### The step cycle's statements -/

/-- Settles O6: the bytes that decode are those of the word at PC. -/
theorem stepRunsTheDecodedInstruction : Obligations.StepRunsTheDecodedInstruction := by
  intro s i hw hpc hdec
  have hd : decodeWord s.wordAtPc = some i := by
    have hbytes : decode [s.mem.read s.pc.toNat, s.mem.read (s.pc.toNat + 1)] = .instr i [] := hdec
    rw [State.decode_fetched] at hbytes
    cases h : decodeWord s.wordAtPc <;> rw [h] at hbytes <;> cases hbytes
    rfl
  exact ⟨fun keys rand8 => stepWith_executes keys rand8 ⟨hw, hpc, rfl⟩ hd, rfl⟩

/-- Settles O7: the fetch by its law, and the two continuations of the step on the word it reads. -/
theorem fetchReadsTheWordAtPc : Obligations.FetchReadsTheWordAtPc := by
  intro s hpc
  refine ⟨⟨_, s.fetch_eq_some hpc, rfl, ?_⟩, fun keys rand8 i hw hd => stepWith_executes keys rand8 ⟨hw, hpc, rfl⟩ hd,
    fun keys rand8 hw hd => stepWith_rejects ⟨hw, hpc, rfl⟩ hd keys rand8⟩
  show (s.pc + 2).toNat = s.pc.toNat + 2
  bv_omega

/-- Settles O8: a failing fetch leaves PC and the latch, so the next fetch fails as well. -/
theorem fetchOutsideMemoryChangesNothing : Obligations.FetchOutsideMemoryChangesNothing := by
  intro s keys rand8 hw hpc
  refine ⟨_, stepWith_fetch_fails hw hpc keys rand8, State.raise_raisesAs _ _, fun keys' rand8' => ?_⟩
  exact ⟨_, stepWith_fetch_fails (s := (s.sample keys rand8).raise .memoryBounds) hw hpc keys' rand8',
    State.raise_raisesAs _ _⟩

/-- Settles O9: an unimplemented word is rejected or is `Bnnn`; either way the step is a raise in the post-fetch state. -/
theorem unimplementedWordCommitsOnlyTheFetch : Obligations.UnimplementedWordCommitsOnlyTheFetch := by
  intro s w keys rand8 hf hw
  have hstep : stepWith keys rand8 s = .next ((Effect.raise .unimplementedOpcode).apply (s.fetched keys rand8)) := by
    obtain hd | ⟨nnn, hd⟩ := (unimplementedWordsAreTheSevenSets w).2.mp hw
    · exact stepWith_rejects hf hd keys rand8
    · exact stepWith_runs hf hd keys rand8
  exact ⟨_, hstep, rfl, rfl, hf.pc_add_two_toNat⟩

theorem Effect.recorded_of_error {E : Effect} {e : ErrorKind} (h : E.outcome = .error e) : E.recorded = [e] := by
  unfold Effect.recorded
  rw [h]

theorem Effect.recorded_of_no_error {E : Effect} (h : ∀ e, E.outcome ≠ .error e) : E.recorded = [] := by
  unfold Effect.recorded
  split
  · exact absurd ‹_› (h _)
  · rfl
  · rfl

/-- Settles O10: a step is one effect, which records the error it returns and nothing else. -/
theorem everyStepReturnsAnOutcome : Obligations.EveryStepReturnsAnOutcome := by
  intro s
  obtain ⟨E, u, hstep, hne, hlog⟩ := stepWith_eq_apply s (Config.keyInput s.samples) (Config.randomByte s.samples)
  refine ⟨_, E.outcome, hstep, rfl, fun h => hne (Effect.eq_raise_of_outcome h), fun e he => ?_, fun he => ?_⟩
  · rw [Effect.apply_errorLog, Effect.recorded_of_error he, hlog]
    rfl
  · rw [Effect.apply_errorLog, Effect.recorded_of_no_error he, hlog]
    rfl

/-- Settles O11: a raise changes nothing of the state it is raised in, the sampled state for a failing fetch and the post-fetch
state for a word. -/
theorem errorsCommitAtMostTheFetch : Obligations.ErrorsCommitAtMostTheFetch := by
  intro s t keys rand8 e hstep hout
  obtain ⟨w, hw⟩ | ⟨hw, hpc⟩ | ⟨hf, hd⟩ | ⟨i, hf, hd⟩ := s.phase_cases
  · obtain rfl := eq_of_next_eq hstep (stepWith_waits hw keys rand8)
    exact absurd (Effect.eq_raise_of_outcome (Option.some.inj hout)) (w.effect_ne_raise _ keys e)
  · obtain rfl := eq_of_next_eq hstep (stepWith_fetch_fails hw hpc keys rand8)
    cases hout
    exact .inl ⟨hpc, rfl, rfl⟩
  · obtain rfl := eq_of_next_eq hstep (stepWith_rejects hf hd keys rand8)
    exact .inr ⟨hf.pc_le, rfl⟩
  · obtain rfl := eq_of_next_eq hstep (stepWith_runs hf hd keys rand8)
    rw [Effect.eq_raise_of_outcome (Option.some.inj hout)]
    exact .inr ⟨hf.pc_le, rfl⟩

/-! ## The invariant and the host's operations (10_state.md R18, R32) -/

/-- Only memory, PC and the stack matter to the invariant. -/
theorem State.Inv.congr {s t : State} (h : s.Inv) (hmem : t.mem = s.mem) (hpc : t.pc = s.pc) (hsp : t.sp = s.sp)
    (hstack : t.stack = s.stack) : t.Inv := by
  unfold State.Inv
  rw [hmem, hpc, hsp, hstack]
  exact h

/-- Settles O13: memory lists nothing and the stack is empty. -/
theorem resetMeetsTheInvariant : Obligations.ResetMeetsTheInvariant :=
  ⟨Memory.wf_nil, by decide, fun k hk => absurd hk k.val.not_lt_zero⟩

/-- An instruction's effect keeps the invariant when PC has just been advanced past a word in memory: a jump stays below 0x1000,
a skip adds 2, a call pushes that PC, and a return pops an address pushed before. -/
theorem Effect.apply_inv {E : Effect} {i : Instr} {s : State} (ha : E.AllowedFor i s) (h : s.Inv)
    (hpost : s.pc.toNat ≤ 0x1000) : (E.apply s).Inv := by
  obtain ⟨hmem, hpc, hstack⟩ := h
  have hzext : ∀ nnn : Addr12, (zext16 nnn).toNat ≤ 0x1002 := fun nnn => by
    have := nnn.isLt
    rw [zext16_toNat]
    omega
  cases E with
  | jump nnn => exact ⟨hmem, hzext nnn, hstack⟩
  | skip taken =>
    refine ⟨hmem, ?_, hstack⟩
    show (if taken then s.pc + 2 else s.pc).toNat ≤ 0x1002
    split
    · bv_omega
    · exact hpc
  | call k nnn =>
    obtain ⟨-, hsp⟩ := ha
    refine ⟨hmem, hzext nnn, fun j hj => ?_⟩
    show ((s.stack.set k.val s.pc k.isLt).get j).toNat ≤ 0x1000
    have hjk : j.val < k.val + 1 := hj
    rw [Vector.get_eq_getElem, Vector.getElem_set]
    split
    · exact hpost
    · next hne => exact hstack j (by rw [hsp]; exact lt_of_le_of_ne (Nat.le_of_lt_succ hjk) (Ne.symm hne))
  | ret k =>
    obtain ⟨-, hsp⟩ := ha
    have hval : s.sp.val = k.val + 1 := congrArg Fin.val hsp
    refine ⟨hmem, (hstack k (by omega)).trans (by decide), fun j hj => hstack j ?_⟩
    have hjk : j.val < k.val := hj
    omega
  | store a bytes =>
    obtain ⟨-, -, hbound⟩ := ha
    exact ⟨Memory.wf_writeBytes hmem bytes hbound, hpc, hstack⟩
  | _ => exact ⟨hmem, hpc, hstack⟩

/-- A step with any inputs keeps the invariant. -/
theorem stepWith_inv {s t : State} {keys : Keys} {rand8 : Byte} (h : s.Inv) (hstep : stepWith keys rand8 s = .next t) :
    t.Inv := by
  have hfetched : s.pc.toNat + 1 ≤ 0xFFF → (s.pc + 2).toNat ≤ 0x1000 := fun _ => by bv_omega
  have hpost : s.pc.toNat + 1 ≤ 0xFFF → (s.fetched keys rand8).Inv := fun hpc => by
    obtain ⟨hmem, -, hstack⟩ := h
    exact ⟨hmem, (hfetched hpc).trans (by decide), hstack⟩
  obtain ⟨w, hw⟩ | ⟨hw, hpc⟩ | ⟨hf, hd⟩ | ⟨i, hf, hd⟩ := s.phase_cases
  · obtain rfl := eq_of_next_eq hstep (stepWith_waits hw keys rand8)
    obtain ⟨w', hE⟩ | ⟨k, hE⟩ := w.effect_cases Config.keywaitMode keys <;> rw [hE] <;> exact h.congr rfl rfl rfl rfl
  · obtain rfl := eq_of_next_eq hstep (stepWith_fetch_fails hw hpc keys rand8)
    exact h.congr rfl rfl rfl rfl
  · obtain rfl := eq_of_next_eq hstep (stepWith_rejects hf hd keys rand8)
    exact (hpost hf.pc_le).congr rfl rfl rfl rfl
  · obtain rfl := eq_of_next_eq hstep (stepWith_runs hf hd keys rand8)
    exact Effect.apply_inv (effect_allowed i _) (hpost hf.pc_le) (hfetched hf.pc_le)

/-- Settles O14: the free inputs of the step are some inputs. -/
theorem stepKeepsTheInvariant : Obligations.StepKeepsTheInvariant := fun _ _ h hstep => stepWith_inv h hstep

/-- A program that fits is written at 0x200, and nothing else is (R148). -/
theorem State.load_of_fits (s : State) {bytes : List Byte} (h : bytes.length ≤ 3584) :
    s.load bytes = (.ok, s.withMem (s.mem.writeBytes 0x200 bytes)) :=
  if_pos h

/-- A program that is too long is refused (R149). -/
theorem State.load_of_too_long (s : State) {bytes : List Byte} (h : 3584 < bytes.length) :
    s.load bytes = (.error .programTooLarge, { s with errorLog := .programTooLarge :: s.errorLog }) :=
  if_neg (Nat.not_le.mpr h)

/-- A load keeps the invariant: 3584 bytes from 0x200 end at 0x1000. -/
theorem State.load_inv {s : State} (h : s.Inv) (bytes : List Byte) : (s.load bytes).2.Inv := by
  obtain ⟨hmem, hpc, hstack⟩ := h
  by_cases hlen : bytes.length ≤ 3584
  · rw [s.load_of_fits hlen]
    exact ⟨Memory.wf_writeBytes hmem bytes (by omega), hpc, hstack⟩
  · rw [s.load_of_too_long (Nat.lt_of_not_le hlen)]
    exact ⟨hmem, hpc, hstack⟩

/-- The state after a step of the host is the step's next state. -/
theorem State.applyOp_step {s : State} {keys : Keys} {rand8 : Byte} {t : State} (h : stepWith keys rand8 s = .next t) :
    s.applyOp (.step keys rand8) = t := by
  show s.after (stepWith keys rand8 s) = t
  rw [h]
  rfl

/-- Every host operation keeps the invariant. -/
theorem State.applyOp_inv {s : State} (h : s.Inv) (op : HostOp) : (s.applyOp op).Inv := by
  cases op with
  | construct => exact resetMeetsTheInvariant
  | load bytes => exact State.load_inv h bytes
  | step keys rand8 =>
    obtain ⟨E, u, hstep, -, -⟩ := stepWith_eq_apply s keys rand8
    exact State.applyOp_step hstep ▸ stepWith_inv h hstep
  | tick => exact h.congr rfl rfl rfl rfl

/-- Settles O15 by induction on the operations. -/
theorem hostOperationsKeepTheInvariant : Obligations.HostOperationsKeepTheInvariant := by
  intro ops
  induction ops with
  | nil => exact fun s h => h
  | cons op ops ih => exact fun s h => ih (s.applyOp op) (State.applyOp_inv h op)

/-- Every host operation only adds to the record of errors (D16). -/
theorem State.errorLog_suffix_applyOp (s : State) (op : HostOp) : s.errorLog <:+ (s.applyOp op).errorLog := by
  cases op with
  | construct => exact List.suffix_refl _
  | load bytes =>
    show s.errorLog <:+ (s.load bytes).2.errorLog
    by_cases hlen : bytes.length ≤ 3584
    · rw [s.load_of_fits hlen]
      exact List.suffix_refl _
    · rw [s.load_of_too_long (Nat.lt_of_not_le hlen)]
      exact List.suffix_cons _ _
  | step keys rand8 =>
    obtain ⟨E, u, hstep, -, hlog⟩ := stepWith_eq_apply s keys rand8
    rw [State.applyOp_step hstep, Effect.apply_errorLog, hlog]
    exact List.suffix_append _ _
  | tick => exact List.suffix_refl _

/-- Settles O60 by induction on the operations. -/
theorem errorRecordIsNeverCleared : Obligations.ErrorRecordIsNeverCleared := by
  intro ops
  induction ops with
  | nil => exact fun s => List.suffix_refl _
  | cons op ops ih => exact fun s => (s.errorLog_suffix_applyOp op).trans (ih (s.applyOp op))

end Sys2Proof.Machine

/-! ## Noninterference: what a step does not read (40_step_cycle.md R75, 10_state.md R22 to R25)

An effect has its values computed, so what an instruction does not read is what its effect does not depend on. -/

namespace Sys2Proof.Machine

/-- A decoded word has the fixed bits of its instruction's row. -/
theorem and_tableMask_of_decodeWord {w : Word} {i : Instr} (h : decodeWord w = some i) : w &&& i.tableMask = i.tableMatch :=
  decodeWord_eq_some_iff.mp h ▸ encode_and_tableMask i

/-- A decoded word has the operands in its fields. -/
theorem row_fields_of_decodeWord {w : Word} {i : Instr} (h : decodeWord w = some i) : i.row (fields w) = i :=
  decodeWord_eq_some_iff.mp h ▸ row_fields_encode i

/-- Two steps that are one effect on states with the same core agree in the core's state and the outcome. -/
theorem Effect.apply_agrees (E : Effect) {u u' : State} (h : u.toCoreState = u'.toCoreState) :
    (E.apply u).toCoreState = (E.apply u').toCoreState ∧ (E.apply u).outcome = (E.apply u').outcome :=
  ⟨congrArg E.onCore h, rfl⟩

/-- The effect of every instruction but RND is the same whatever random byte is supplied (R75). -/
theorem effect_withRand8 {i : Instr} (h : ∀ x kk, i ≠ .rnd x kk) (s : State) (r : Byte) :
    i.effect { s with rand8 := r } = i.effect s := by
  cases i with
  | rnd x kk => exact absurd rfl (h x kk)
  | _ => rfl

/-- The effect of every instruction but the three key instructions is the same whatever the keys are (R75). -/
theorem effect_withKeys {i : Instr} (hskp : ∀ x, i ≠ .skp x) (hsknp : ∀ x, i ≠ .sknp x) (hldk : ∀ x, i ≠ .ldVxK x)
    (s : State) (keys : Keys) : i.effect { s with keys := keys } = i.effect s := by
  cases i with
  | skp x => exact absurd rfl (hskp x)
  | sknp x => exact absurd rfl (hsknp x)
  | ldVxK x => exact absurd rfl (hldk x)
  | _ => rfl

/-- Settles O16: a word of any class but 0xC decodes to no RND, and the waiting step reads the keys only. -/
theorem randomByteIsReadOnlyByRnd : Obligations.RandomByteIsReadOnlyByRnd := by
  intro s keys r r' hclass
  obtain ⟨w, hw⟩ | ⟨hw, hpc⟩ | ⟨hf, hd⟩ | ⟨i, hf, hd⟩ := s.phase_cases
  · exact ⟨_, _, stepWith_waits hw keys r, stepWith_waits hw keys r', Effect.apply_agrees _ rfl⟩
  · exact ⟨_, _, stepWith_fetch_fails hw hpc keys r, stepWith_fetch_fails hw hpc keys r', Effect.apply_agrees _ rfl⟩
  · exact ⟨_, _, stepWith_rejects hf hd keys r, stepWith_rejects hf hd keys r', Effect.apply_agrees _ rfl⟩
  · have hrnd : ∀ x kk, i ≠ .rnd x kk := by
      rintro x kk rfl
      exact hclass ⟨hf.1, and_tableMask_of_decodeWord hd⟩
    have hE : i.effect (s.fetched keys r') = i.effect (s.fetched keys r) := effect_withRand8 hrnd (s.fetched keys r) r'
    refine ⟨_, _, stepWith_runs hf hd keys r, stepWith_runs hf hd keys r', ?_⟩
    rw [hE]
    exact Effect.apply_agrees _ rfl

/-- Settles O17: a word of none of the three rows decodes to no key instruction. -/
theorem keysAreReadOnlyByKeyInstructions : Obligations.KeysAreReadOnlyByKeyInstructions := by
  intro s keys keys' r hwait hskp hsknp hldk
  obtain ⟨w, hw⟩ | ⟨hw, hpc⟩ | ⟨hf, hd⟩ | ⟨i, hf, hd⟩ := s.phase_cases
  · exact absurd (hwait.symm.trans hw) nofun
  · exact ⟨_, _, stepWith_fetch_fails hw hpc keys r, stepWith_fetch_fails hw hpc keys' r, Effect.apply_agrees _ rfl⟩
  · exact ⟨_, _, stepWith_rejects hf hd keys r, stepWith_rejects hf hd keys' r, Effect.apply_agrees _ rfl⟩
  · have hmask := and_tableMask_of_decodeWord hd
    have hE : i.effect (s.fetched keys' r) = i.effect (s.fetched keys r) :=
      effect_withKeys (by rintro x rfl; exact hskp hmask) (by rintro x rfl; exact hsknp hmask)
        (by rintro x rfl; exact hldk hmask) (s.fetched keys r) keys'
    refine ⟨_, _, stepWith_runs hf hd keys r, stepWith_runs hf hd keys' r, ?_⟩
    rw [hE]
    exact Effect.apply_agrees _ rfl

/-! ### Stale stack slots -/

/-- No instruction's effect depends on what the stack holds; a return is an effect that names its slot. -/
theorem effect_withStack (i : Instr) (s : State) (st : Vector Word 16) : i.effect (s.withStack st) = i.effect s := by
  cases i <;> rfl

/-- Stale slots stay stale: a call overwrites the slot it makes live, and a return reads a live slot (R22). -/
theorem Effect.apply_sameButStale {E : Effect} {s : State} {st : Vector Word 16}
    (hcall : ∀ k nnn, E = .call k nnn → s.sp = k.castSucc) (hret : ∀ k, E = .ret k → s.sp = k.succ)
    (h : ∀ k : Fin 16, k.val < s.sp.val → st.get k = s.stack.get k) :
    (E.apply s).sameButStale (E.apply (s.withStack st)) := by
  cases E with
  | call k nnn =>
    refine ⟨rfl, fun j hj => ?_⟩
    show (st.set k.val s.pc k.isLt).get j = (s.stack.set k.val s.pc k.isLt).get j
    have hjk : j.val < k.val + 1 := hj
    simp only [Vector.get_eq_getElem, Vector.getElem_set]
    split
    · rfl
    · next hne => exact h j (by rw [hcall k nnn rfl]; exact lt_of_le_of_ne (Nat.le_of_lt_succ hjk) (Ne.symm hne))
  | ret k =>
    have hval : s.sp.val = k.val + 1 := congrArg Fin.val (hret k rfl)
    have hk : st.get k = s.stack.get k := h k (by omega)
    refine ⟨?_, fun j hj => h j ?_⟩
    · show { (Effect.ret k).apply s with pc := st.get k, stack := st } = { (Effect.ret k).apply s with stack := st }
      rw [hk]
      rfl
    · have hjk : j.val < k.val := hj
      omega
  | _ => exact ⟨rfl, h⟩

/-- Settles O18: the two steps are in the same phase and have the same effect. -/
theorem staleStackSlotsAreUnobservable : Obligations.StaleStackSlotsAreUnobservable := by
  rintro s s' keys rand8 ⟨hs', hslots⟩
  generalize s'.stack = st at hs' hslots
  obtain rfl : s' = s.withStack st := hs'
  obtain ⟨w, hw⟩ | ⟨hw, hpc⟩ | ⟨hf, hd⟩ | ⟨i, hf, hd⟩ := s.phase_cases
  · refine ⟨_, _, stepWith_waits hw keys rand8, stepWith_waits (s := s.withStack st) hw keys rand8, ?_⟩
    obtain ⟨w', hE⟩ | ⟨k, hE⟩ := w.effect_cases Config.keywaitMode keys <;> rw [hE]
    · exact Effect.apply_sameButStale (s := s.sample keys rand8) nofun nofun hslots
    · exact Effect.apply_sameButStale (s := s.sample keys rand8) nofun nofun hslots
  · exact ⟨_, _, stepWith_fetch_fails hw hpc keys rand8, stepWith_fetch_fails (s := s.withStack st) hw hpc keys rand8,
      Effect.apply_sameButStale (s := s.sample keys rand8) nofun nofun hslots⟩
  · exact ⟨_, _, stepWith_rejects hf hd keys rand8, stepWith_rejects (s := s.withStack st) hf hd keys rand8,
      Effect.apply_sameButStale (s := s.fetched keys rand8) nofun nofun hslots⟩
  · have hE : i.effect ((s.withStack st).fetched keys rand8) = i.effect (s.fetched keys rand8) :=
      effect_withStack i (s.fetched keys rand8) st
    have hallowed := effect_allowed i (s.fetched keys rand8)
    refine ⟨_, _, stepWith_runs hf hd keys rand8, hE ▸ stepWith_runs (s := s.withStack st) hf hd keys rand8, ?_⟩
    refine Effect.apply_sameButStale (s := s.fetched keys rand8) (fun k nnn h => ?_) (fun k h => ?_) hslots
    · rw [h] at hallowed
      exact hallowed.2
    · rw [h] at hallowed
      exact hallowed.2

/-! ### Timers and framebuffer -/

theorem effect_withSt (i : Instr) (s : State) (b : Byte) : i.effect (s.withSt b) = i.effect s := by
  cases i <;> rfl

theorem effect_withDt {i : Instr} (h : ∀ x, i ≠ .ldVxDt x) (s : State) (b : Byte) : i.effect (s.withDt b) = i.effect s := by
  cases i with
  | ldVxDt x => exact absurd rfl (h x)
  | _ => rfl

theorem effect_withFb {i : Instr} (h : ∀ x y n, i ≠ .drw x y n) (s : State) (fb : Framebuffer) :
    i.effect (s.withFb fb) = i.effect s := by
  cases i with
  | drw x y n => exact absurd rfl (h x y n)
  | _ => rfl

theorem Effect.apply_withSt {E : Effect} (h : ∀ b, E ≠ .setSt b) (s : State) (b : Byte) :
    E.apply (s.withSt b) = (E.apply s).withSt b := by
  cases E with
  | setSt b' => exact absurd rfl (h b')
  | _ => rfl

theorem Effect.apply_withDt {E : Effect} (h : ∀ b, E ≠ .setDt b) (s : State) (b : Byte) :
    E.apply (s.withDt b) = (E.apply s).withDt b := by
  cases E with
  | setDt b' => exact absurd rfl (h b')
  | _ => rfl

theorem Effect.apply_withFb {E : Effect} (hset : ∀ fb, E ≠ .setFb fb) (hdraw : ∀ fb f, E ≠ .draw fb f) (s : State)
    (fb : Framebuffer) : E.apply (s.withFb fb) = (E.apply s).withFb fb := by
  cases E with
  | setFb fb' => exact absurd rfl (hset fb')
  | draw fb' f => exact absurd rfl (hdraw fb' f)
  | _ => rfl

/-- Settles O19: the element changed is neither read by the effect nor written by it. -/
theorem timersAndFramebufferAreReadOnlyWhereNamed : Obligations.TimersAndFramebufferAreReadOnlyWhereNamed := by
  intro i s t d b fb h
  obtain rfl := eq_apply_of_exec h
  refine ⟨fun hst => ?_, fun hwrite hread => ?_, fun hcls hdrw => ?_⟩
  · rw [exec_eq, effect_withSt, Effect.apply_withSt (effect_ne_setSt hst s)]
  · rw [exec_eq, effect_withDt hread, Effect.apply_withDt (effect_ne_setDt hwrite s)]
  · rw [exec_eq, effect_withFb hdrw, Effect.apply_withFb (effect_ne_setFb hcls s) (effect_ne_draw hdrw s)]

/-! ### Self-loops -/

/-- The word of a self-loop is `1nnn` with nnn = PC. -/
theorem State.selfLoop.decodeWord_wordAtPc {s : State} (h : s.selfLoop) :
    ∃ nnn, decodeWord s.wordAtPc = some (.jp nnn) ∧ zext16 nnn = s.pc := by
  obtain ⟨-, hpc, hword⟩ := h
  have hclass : s.wordAtPc &&& 0xF000 = 0x1000 := (and_F000 _ 0x1 (by decide)).mpr (by omega)
  refine ⟨_, encodedAs_row (.jp 0) _ hclass, ?_⟩
  apply BitVec.eq_of_toNat_eq
  rw [zext16_toNat, fields_nnn_toNat]
  omega

/-- Settles O20: the jump restores the PC that the fetch advanced. -/
theorem selfLoopIsAFixedPoint : Obligations.SelfLoopIsAFixedPoint := by
  intro s keys rand8 h
  obtain ⟨nnn, hd, hnnn⟩ := h.decodeWord_wordAtPc
  obtain ⟨hw, hpc, -⟩ := h
  have hf : s.Fetches s.wordAtPc := ⟨hw, by omega, rfl⟩
  refine ⟨_, stepWith_executes keys rand8 hf hd, ?_, rfl, rfl, rfl, rfl, rfl⟩
  show { s.toCoreState with pc := zext16 nnn } = s.toCoreState
  rw [hnnn]

end Sys2Proof.Machine

/-! ## Errors: which conditions raise them (60_exceptions.md R124)

The condition of every instruction's error (`Instr.errorIn`), then the condition of every step's error, then each kind's condition
on the word fetched. -/

namespace Sys2Proof

open Machine

/-- The error that an instruction raises in a post-fetch state, if it raises one (R124). -/
def Instr.errorIn (s : State) : Instr → Option ErrorKind
  | .ret                  => if s.sp.val = 0 then some .stackUnderflow else none
  | .call _               => if s.sp.val = 16 then some .stackOverflow else none
  | .jpV0 _               => some .unimplementedOpcode
  | .skp x | .sknp x      => if 0xF < (s.reg x).toNat then some .keyIndex else none
  | .drw _ _ n            => if n.val ≠ 0 ∧ 0x1000 < s.i.toNat + n.val then some .memoryBounds else none
  | .ldB _                => if 0x1000 < s.i.toNat + 3 then some .memoryBounds else none
  | .ldMemVx x | .ldVxMem x => if 0x1000 < s.i.toNat + (x.val + 1) then some .memoryBounds else none
  | .cls | .jp _ | .seImm _ _ | .sneImm _ _ | .seReg _ _ | .sneReg _ _ | .ldImm _ _ | .addImm _ _ | .ldReg _ _ => none
  | .orReg _ _ | .andReg _ _ | .xorReg _ _ | .addReg _ _ | .subReg _ _ | .shr _ _ | .subnReg _ _ | .shl _ _ => none
  | .ldI _ | .rnd _ _ | .ldVxDt _ | .ldVxK _ | .ldDtVx _ | .ldStVx _ | .addI _ | .ldF _ => none

end Sys2Proof

namespace Sys2Proof.Machine

/-- The error an effect returns. -/
def Effect.error? (E : Effect) : Option ErrorKind :=
  match E.outcome with
  | .error e => some e
  | .completed | .waitingForKey => none

theorem Effect.outcome_eq_error_iff {E : Effect} {e : ErrorKind} : E.outcome = .error e ↔ E.error? = some e := by
  unfold Effect.error?
  cases E.outcome <;> simp

theorem State.retEffect_error? (s : State) :
    s.retEffect.error? = if s.sp.val = 0 then some .stackUnderflow else none := by
  unfold State.retEffect
  split_ifs <;> rfl

theorem State.callEffect_error? (s : State) (nnn : Addr12) :
    (s.callEffect nnn).error? = if s.sp.val = 16 then some .stackOverflow else none := by
  unfold State.callEffect
  have hsp := s.sp.isLt
  split_ifs
  · omega
  · rfl
  · rfl
  · omega

theorem State.skipOnKeyEffect_error? (s : State) (x : RegIdx) (pressed : Bool) :
    (s.skipOnKeyEffect x pressed).error? = if 0xF < (s.reg x).toNat then some .keyIndex else none := by
  unfold State.skipOnKeyEffect
  split_ifs with h
  · rw [keyIndex_eq_none h]
    rfl
  · rw [keyIndex_eq_some (Nat.lt_succ_of_le (Nat.le_of_not_lt h))]
    rfl

/-- A store whose bytes all lie in memory is made. -/
theorem State.storeEffect_eq_store (s : State) {bytes : List Byte} (h : s.i.toNat + bytes.length ≤ 0x1000) :
    s.storeEffect bytes = .store s.i.toNat bytes :=
  if_pos h

/-- A store with a byte outside memory is refused. -/
theorem State.storeEffect_eq_raise (s : State) {bytes : List Byte} (h : 0x1000 < s.i.toNat + bytes.length) :
    s.storeEffect bytes = .raise .memoryBounds :=
  if_neg (Nat.not_le.mpr h)

theorem State.storeEffect_error? (s : State) (bytes : List Byte) :
    (s.storeEffect bytes).error? = if 0x1000 < s.i.toNat + bytes.length then some .memoryBounds else none := by
  split_ifs with h
  · rw [s.storeEffect_eq_raise h]
    rfl
  · rw [s.storeEffect_eq_store (Nat.le_of_not_lt h)]
    rfl

/-- A load whose bytes all lie in memory is made. -/
theorem State.loadEffect_eq_load (s : State) {n : Nat} (h : s.i.toNat + n ≤ 0x1000) :
    s.loadEffect n = .load (s.mem.readBytes s.i.toNat n) := by
  rw [State.loadEffect, s.memRead_eq_some (a := s.indexed 0) h]
  rfl

/-- A load with a byte outside memory is refused. -/
theorem State.loadEffect_eq_raise (s : State) {n : Nat} (h : 0x1000 < s.i.toNat + n) :
    s.loadEffect n = .raise .memoryBounds := by
  rw [State.loadEffect, s.memRead_eq_none (a := s.indexed 0) h]
  rfl

theorem State.loadEffect_error? (s : State) (n : Nat) :
    (s.loadEffect n).error? = if 0x1000 < s.i.toNat + n then some .memoryBounds else none := by
  split_ifs with h
  · rw [s.loadEffect_eq_raise h]
    rfl
  · rw [s.loadEffect_eq_load (Nat.le_of_not_lt h)]
    rfl

/-- A draw whose rows all lie in memory is made. -/
theorem State.drawEffect_eq_draw (s : State) (x y : RegIdx) {n : Fin 16} (h : n.val = 0 ∨ s.i.toNat + n.val ≤ 0x1000) :
    s.drawEffect x y n = .draw (s.drawn x y (s.mem.readBytes s.i.toNat n.val)).1
      (flagByte (s.drawn x y (s.mem.readBytes s.i.toNat n.val)).2) := by
  rw [State.drawEffect, s.spriteRows_eq_some h]
  rfl

/-- A draw with a row outside memory is refused. -/
theorem State.drawEffect_eq_raise (s : State) (x y : RegIdx) {n : Fin 16} (h0 : n.val ≠ 0)
    (h : 0x1000 < s.i.toNat + n.val) : s.drawEffect x y n = .raise .memoryBounds := by
  rw [State.drawEffect, s.spriteRows_eq_none h0 h]
  rfl

theorem State.drawEffect_error? (s : State) (x y : RegIdx) (n : Fin 16) :
    (s.drawEffect x y n).error? = if n.val ≠ 0 ∧ 0x1000 < s.i.toNat + n.val then some .memoryBounds else none := by
  split_ifs with h
  · rw [s.drawEffect_eq_raise x y h.1 h.2]
    rfl
  · rw [s.drawEffect_eq_draw x y (by omega)]
    rfl

theorem State.keyWaitEffect_error? (mode : KeywaitMode) (x : RegIdx) (s : State) : (s.keyWaitEffect mode x).error? = none := by
  unfold State.keyWaitEffect
  cases mode with
  | edge => rfl
  | level => cases leastKey s.keys <;> rfl

/-- An instruction raises exactly the error of its own condition. -/
theorem effect_error? (i : Instr) (s : State) : (i.effect s).error? = i.errorIn s := by
  cases i with
  | ret => exact s.retEffect_error?
  | call nnn => exact s.callEffect_error? nnn
  | skp x => exact s.skipOnKeyEffect_error? x true
  | sknp x => exact s.skipOnKeyEffect_error? x false
  | drw x y n => exact s.drawEffect_error? x y n
  | ldB x => exact s.storeEffect_error? _
  | ldMemVx x => exact (s.storeEffect_error? _).trans (by rw [State.regBlock_length]; rfl)
  | ldVxMem x => exact s.loadEffect_error? _
  | ldVxK x => exact s.keyWaitEffect_error? _ x
  | _ => rfl

/-- The fetch changes nothing an error condition reads. -/
theorem errorIn_fetched (i : Instr) (s : State) (keys : Keys) (rand8 : Byte) :
    i.errorIn (s.fetched keys rand8) = i.errorIn s := by
  cases i <;> rfl

/-! ### Each kind by instruction -/

theorem errorIn_eq_unimplementedOpcode {i : Instr} {s : State} :
    i.errorIn s = some .unimplementedOpcode ↔ ∃ nnn, i = .jpV0 nnn := by
  cases i <;> simp [Instr.errorIn]

theorem errorIn_eq_stackOverflow {i : Instr} {s : State} :
    i.errorIn s = some .stackOverflow ↔ (∃ nnn, i = .call nnn) ∧ s.sp.val = 16 := by
  cases i <;> simp [Instr.errorIn]

theorem errorIn_eq_stackUnderflow {i : Instr} {s : State} :
    i.errorIn s = some .stackUnderflow ↔ i = .ret ∧ s.sp.val = 0 := by
  cases i <;> simp [Instr.errorIn]

theorem errorIn_eq_keyIndex {i : Instr} {s : State} :
    i.errorIn s = some .keyIndex ↔ ∃ x, (i = .skp x ∨ i = .sknp x) ∧ 0xF < (s.reg x).toNat := by
  cases i <;> simp [Instr.errorIn]

theorem errorIn_eq_memoryBounds {i : Instr} {s : State} :
    i.errorIn s = some .memoryBounds ↔
      ((∃ x, i = .ldB x) ∧ 0x1000 < s.i.toNat + 3) ∨
      (∃ x, (i = .ldMemVx x ∨ i = .ldVxMem x) ∧ 0x1000 < s.i.toNat + (x.val + 1)) ∨
      ∃ x y n, i = .drw x y n ∧ n.val ≠ 0 ∧ 0x1000 < s.i.toNat + n.val := by
  cases i with
  | ldB x =>
    simp [Instr.errorIn]
    omega
  | _ => simp [Instr.errorIn]

theorem errorIn_ne_programTooLarge (i : Instr) (s : State) : i.errorIn s ≠ some .programTooLarge := by
  cases i <;> simp [Instr.errorIn]

/-! ### Each kind by word -/

/-- The error of the word fetched, if it raises one: its own, or UnimplementedOpcode when no row matches it. -/
def State.wordError (s : State) (w : Word) : Option ErrorKind :=
  (decodeWord w).elim (some .unimplementedOpcode) (Instr.errorIn s)

theorem State.wordError_eq_some_iff {s : State} {w : Word} {e : ErrorKind} :
    s.wordError w = some e ↔
      (decodeWord w = none ∧ e = .unimplementedOpcode) ∨ ∃ i, decodeWord w = some i ∧ i.errorIn s = some e := by
  unfold State.wordError
  cases decodeWord w with
  | none => simp [eq_comm]
  | some i => simp

/-- Every word of a row raises what its instruction raises. -/
theorem State.wordError_of_row {s : State} {w : Word} {i : Instr} {e : ErrorKind} (hw : w &&& i.tableMask = i.tableMatch)
    (he : (i.row (fields w)).errorIn s = some e) : s.wordError w = some e :=
  State.wordError_eq_some_iff.mpr (.inr ⟨_, encodedAs_row i w hw, he⟩)

theorem State.wordError_eq_unimplementedOpcode {s : State} {w : Word} :
    s.wordError w = some .unimplementedOpcode ↔ wellFormedWord w = false := by
  rw [State.wordError_eq_some_iff, (unimplementedWordsAreTheSevenSets w).2]
  constructor
  · rintro (⟨hd, -⟩ | ⟨i, hd, he⟩)
    · exact .inl hd
    · obtain ⟨nnn, rfl⟩ := errorIn_eq_unimplementedOpcode.mp he
      exact .inr ⟨nnn, hd⟩
  · rintro (hd | ⟨nnn, hd⟩)
    · exact .inl ⟨hd, rfl⟩
    · exact .inr ⟨_, hd, rfl⟩

theorem State.wordError_eq_stackOverflow {s : State} {w : Word} :
    s.wordError w = some .stackOverflow ↔ w &&& 0xF000 = 0x2000 ∧ s.sp.val = 16 := by
  constructor
  · intro h
    obtain ⟨-, hkind⟩ | ⟨i, hd, he⟩ := State.wordError_eq_some_iff.mp h
    · cases hkind
    · obtain ⟨⟨nnn, rfl⟩, hsp⟩ := errorIn_eq_stackOverflow.mp he
      exact ⟨and_tableMask_of_decodeWord hd, hsp⟩
  · rintro ⟨hw, hsp⟩
    exact State.wordError_of_row (i := .call 0) hw (if_pos hsp)

theorem State.wordError_eq_stackUnderflow {s : State} {w : Word} :
    s.wordError w = some .stackUnderflow ↔ w = 0x00EE ∧ s.sp.val = 0 := by
  constructor
  · intro h
    obtain ⟨-, hkind⟩ | ⟨i, hd, he⟩ := State.wordError_eq_some_iff.mp h
    · cases hkind
    · obtain ⟨rfl, hsp⟩ := errorIn_eq_stackUnderflow.mp he
      exact ⟨decodeWord_eq_some_iff.mp hd, hsp⟩
  · rintro ⟨rfl, hsp⟩
    exact State.wordError_of_row (i := .ret) rfl (if_pos hsp)

theorem State.wordError_eq_keyIndex {s : State} {w : Word} :
    s.wordError w = some .keyIndex ↔
      (w &&& 0xF0FF = 0xE09E ∨ w &&& 0xF0FF = 0xE0A1) ∧ 0xF < (s.reg (fields w).x).toNat := by
  constructor
  · intro h
    obtain ⟨-, hkind⟩ | ⟨i, hd, he⟩ := State.wordError_eq_some_iff.mp h
    · cases hkind
    · obtain ⟨x, rfl | rfl, hx⟩ := errorIn_eq_keyIndex.mp he
      · obtain rfl : (fields w).x = x := Instr.skp.inj (row_fields_of_decodeWord hd)
        exact ⟨.inl (and_tableMask_of_decodeWord hd), hx⟩
      · obtain rfl : (fields w).x = x := Instr.sknp.inj (row_fields_of_decodeWord hd)
        exact ⟨.inr (and_tableMask_of_decodeWord hd), hx⟩
  · rintro ⟨hw | hw, hx⟩
    · exact State.wordError_of_row (i := .skp 0) hw (if_pos hx)
    · exact State.wordError_of_row (i := .sknp 0) hw (if_pos hx)

theorem State.wordError_eq_memoryBounds {s : State} {w : Word} :
    s.wordError w = some .memoryBounds ↔
      (w &&& 0xF0FF = 0xF033 ∧ 0xFFF < s.i.toNat + 2) ∨
      ((w &&& 0xF0FF = 0xF055 ∨ w &&& 0xF0FF = 0xF065) ∧ 0xFFF < s.i.toNat + (fields w).x.val) ∨
      (w &&& 0xF000 = 0xD000 ∧ 1 ≤ (fields w).n.val ∧ 0xFFF < s.i.toNat + (fields w).n.val - 1) := by
  constructor
  · intro h
    obtain ⟨-, hkind⟩ | ⟨i, hd, he⟩ := State.wordError_eq_some_iff.mp h
    · cases hkind
    · have hmask := and_tableMask_of_decodeWord hd
      obtain ⟨⟨x, rfl⟩, hb⟩ | ⟨x, rfl | rfl, hb⟩ | ⟨x, y, n, rfl, h0, hb⟩ := errorIn_eq_memoryBounds.mp he
      · exact .inl ⟨hmask, by omega⟩
      · obtain rfl : (fields w).x = x := Instr.ldMemVx.inj (row_fields_of_decodeWord hd)
        exact .inr (.inl ⟨.inl hmask, by omega⟩)
      · obtain rfl : (fields w).x = x := Instr.ldVxMem.inj (row_fields_of_decodeWord hd)
        exact .inr (.inl ⟨.inr hmask, by omega⟩)
      · obtain ⟨-, -, rfl⟩ := Instr.drw.inj (row_fields_of_decodeWord hd)
        exact .inr (.inr ⟨hmask, by omega, by omega⟩)
  · rintro (⟨hw, hb⟩ | ⟨hw | hw, hb⟩ | ⟨hw, h0, hb⟩)
    · exact State.wordError_of_row (i := .ldB 0) hw (if_pos (by omega))
    · exact State.wordError_of_row (i := .ldMemVx 0) hw (if_pos (by omega))
    · exact State.wordError_of_row (i := .ldVxMem 0) hw (if_pos (by omega))
    · exact State.wordError_of_row (i := .drw 0 0 0) hw (if_pos (by omega))

theorem State.wordError_ne_programTooLarge (s : State) (w : Word) : s.wordError w ≠ some .programTooLarge := by
  intro h
  obtain ⟨-, hkind⟩ | ⟨i, -, he⟩ := State.wordError_eq_some_iff.mp h
  · cases hkind
  · exact errorIn_ne_programTooLarge i s he

/-! ### Each kind by step -/

/-- A step returns an error when its fetch fails, and when the word it fetches raises one. -/
theorem stepWith_outcome_eq_error_iff {s t : State} {keys : Keys} {rand8 : Byte} (hstep : stepWith keys rand8 s = .next t)
    (e : ErrorKind) :
    t.outcome = some (.error e) ↔
      (s.wait = none ∧ 0xFFF < s.pc.toNat + 1 ∧ e = .memoryBounds) ∨
      ((s.wait = none ∧ s.pc.toNat + 1 ≤ 0xFFF) ∧ s.wordError s.wordAtPc = some e) := by
  obtain ⟨w, hw⟩ | ⟨hw, hpc⟩ | ⟨⟨hw, hpc, -⟩, hd⟩ | ⟨i, ⟨hw, hpc, -⟩, hd⟩ := s.phase_cases
  · obtain rfl := eq_of_next_eq hstep (stepWith_waits hw keys rand8)
    have hne : (w.effect Config.keywaitMode keys).outcome ≠ .error e := fun h =>
      w.effect_ne_raise _ keys e (Effect.eq_raise_of_outcome h)
    simp [hw, hne]
  · obtain rfl := eq_of_next_eq hstep (stepWith_fetch_fails hw hpc keys rand8)
    have hout : ¬ s.pc.toNat + 1 ≤ 0xFFF := Nat.not_le.mpr hpc
    simp [hw, hpc, hout, Effect.outcome, eq_comm]
  · obtain rfl := eq_of_next_eq hstep (stepWith_rejects ⟨hw, hpc, rfl⟩ hd keys rand8)
    have hin : ¬ 0xFFF < s.pc.toNat + 1 := Nat.not_lt.mpr hpc
    simp [hw, hpc, hin, hd, State.wordError, Effect.outcome]
  · obtain rfl := eq_of_next_eq hstep (stepWith_runs ⟨hw, hpc, rfl⟩ hd keys rand8)
    have hin : ¬ 0xFFF < s.pc.toNat + 1 := Nat.not_lt.mpr hpc
    have hword : s.wordError s.wordAtPc = i.errorIn s := by rw [State.wordError, hd]; rfl
    rw [Effect.apply_outcome, Option.some_inj, Effect.outcome_eq_error_iff, effect_error?, errorIn_fetched, hword]
    simp [hw, hpc, hin]

/-- The same for a kind that no failing fetch raises. -/
theorem stepWith_outcome_eq_error_iff_wordError {s t : State} {keys : Keys} {rand8 : Byte}
    (hstep : stepWith keys rand8 s = .next t) (e : ErrorKind) (he : e ≠ .memoryBounds) :
    t.outcome = some (.error e) ↔ (s.wait = none ∧ s.pc.toNat + 1 ≤ 0xFFF) ∧ s.wordError s.wordAtPc = some e := by
  rw [stepWith_outcome_eq_error_iff hstep]
  exact or_iff_right fun ⟨_, _, h⟩ => he h

/-- A load returns ProgramTooLarge for a program that is too long, and no other error (R149). -/
theorem State.load_error_iff (s : State) (bytes : List Byte) (e : ErrorKind) :
    (s.load bytes).1 = .error e ↔ e = .programTooLarge ∧ 3584 < bytes.length := by
  by_cases hlen : 3584 < bytes.length
  · rw [s.load_of_too_long hlen]
    simp [hlen, eq_comm]
  · rw [s.load_of_fits (Nat.le_of_not_lt hlen)]
    exact iff_of_false nofun fun ⟨_, h⟩ => hlen h

/-- Settles O12, kind by kind. -/
theorem errorsAreRaisedExactlyWhen : Obligations.ErrorsAreRaisedExactlyWhen := by
  refine ⟨fun s t keys rand8 hstep => ⟨?_, ?_, ?_, ?_, ?_, ?_⟩, State.load_error_iff⟩
  · rw [stepWith_outcome_eq_error_iff_wordError hstep .unimplementedOpcode nofun, State.wordError_eq_unimplementedOpcode]
  · rw [stepWith_outcome_eq_error_iff_wordError hstep .stackOverflow nofun, State.wordError_eq_stackOverflow]
  · rw [stepWith_outcome_eq_error_iff_wordError hstep .stackUnderflow nofun, State.wordError_eq_stackUnderflow]
  · rw [stepWith_outcome_eq_error_iff_wordError hstep .keyIndex nofun, State.wordError_eq_keyIndex]
  · rw [stepWith_outcome_eq_error_iff hstep, State.wordError_eq_memoryBounds, and_or_left, and_or_left]
    simp only [and_true]
  · rw [ne_eq, stepWith_outcome_eq_error_iff_wordError hstep .programTooLarge nofun]
    exact fun ⟨_, h⟩ => s.wordError_ne_programTooLarge _ h

end Sys2Proof.Machine

/-! ## The instructions one by one: control transfer (41_control_flow.md) -/

namespace Sys2Proof.Machine

/-- An effect that completes is what the statements call completing, with the core's state it makes (R72). -/
theorem Effect.apply_completesAs {E : Effect} (h : E.outcome = .completed) (s : State) :
    s.CompletesAs (E.apply s) (E.onCore s.toCoreState) := by
  refine ⟨rfl, congrArg some h, ?_, E.apply_sameInputs s⟩
  rw [Effect.apply_errorLog, Effect.recorded_of_no_error (by rw [h]; exact nofun)]
  rfl

/-- The execute phase with the effect computed. -/
theorem exec_of_effect {i : Instr} {s : State} {E : Effect} (h : i.effect s = E) : exec i s = .next (E.apply s) :=
  h ▸ exec_eq i s

theorem State.retEffect_of_empty {s : State} (h : s.sp.val = 0) : s.retEffect = .raise .stackUnderflow :=
  dif_pos h

theorem State.retEffect_of_occupied {s : State} {k : Fin 16} (h : s.sp = k.succ) : s.retEffect = .ret k := by
  have hval : s.sp.val = k.val + 1 := congrArg Fin.val h
  have hslot : (⟨s.sp.val - 1, by omega⟩ : Fin 16) = k := Fin.ext (by simp [hval])
  exact (dif_neg (by omega)).trans (congrArg Effect.ret hslot)

theorem State.callEffect_of_full {s : State} (nnn : Addr12) (h : s.sp.val = 16) :
    s.callEffect nnn = .raise .stackOverflow :=
  dif_neg (by omega)

theorem State.callEffect_of_free {s : State} {k : Fin 16} (nnn : Addr12) (h : s.sp = k.castSucc) :
    s.callEffect nnn = .call k nnn := by
  have hval : s.sp.val = k.val := congrArg Fin.val h
  have hslot : (⟨s.sp.val, by omega⟩ : Fin 16) = k := Fin.ext hval
  exact (dif_pos (by omega)).trans (congrArg (Effect.call · nnn) hslot)

/-- Settles O26: a return is a pop of the slot below SP, or a raise on an empty stack. -/
theorem retPopsTheReturnAddress : Obligations.RetPopsTheReturnAddress :=
  ⟨fun _ => decodeWord_eq_some_iff,
    fun s h => ⟨_, exec_of_effect (State.retEffect_of_empty h), s.raise_raisesAs _⟩,
    fun s _ h => ⟨_, exec_of_effect (State.retEffect_of_occupied h), Effect.apply_completesAs rfl s⟩⟩

/-- Settles O27: the instruction is one write of PC. -/
theorem jpSetsPc : Obligations.JpSetsPc := fun nnn s =>
  ⟨_, exec_eq (.jp nnn) s, Effect.apply_completesAs rfl s, zext16_toNat nnn⟩

/-- What the stack holds after a push into the free slot k. -/
theorem Effect.stack_apply_call (k j : Fin 16) (nnn : Addr12) (s : State) :
    ((Effect.call k nnn).apply s).stack.get j = if j = k then s.pc else s.stack.get j := by
  show (s.stack.set k.val s.pc k.isLt).get j = _
  simp only [Vector.get_eq_getElem, Vector.getElem_set, Fin.ext_iff, eq_comm]

/-- Settles O28: a call is a push into the slot at SP and a jump, or a raise on a full stack. -/
theorem callPushesThePostFetchPc : Obligations.CallPushesThePostFetchPc :=
  ⟨encodedAs_row (.call 0),
    fun nnn s h => ⟨_, exec_of_effect (State.callEffect_of_full nnn h), s.raise_raisesAs _⟩,
    fun nnn s k h => ⟨_, exec_of_effect (State.callEffect_of_free nnn h), Effect.apply_completesAs rfl s, zext16_toNat nnn,
      fun j => Effect.stack_apply_call k j nnn s⟩⟩

/-- A call that completes had a free slot, and pushed PC into it. -/
theorem exec_call_completed {nnn : Addr12} {s t : State} (h : exec (.call nnn) s = .next t)
    (hout : t.outcome = some .completed) : ∃ k : Fin 16, s.sp = k.castSucc ∧ t = (Effect.call k nnn).apply s := by
  obtain rfl := eq_apply_of_exec h
  have hfree : s.sp.val ≠ 16 := by
    intro hfull
    have hraise : (Instr.call nnn).effect s = .raise .stackOverflow := State.callEffect_of_full nnn hfull
    rw [hraise] at hout
    cases hout
  have hk : s.sp = (⟨s.sp.val, by omega⟩ : Fin 16).castSucc := Fin.ext rfl
  exact ⟨_, hk, congrArg (Effect.apply · s) (State.callEffect_of_free nnn hk)⟩

/-- Settles O29: the slot on top is the one that the call wrote. -/
theorem returnAfterCallGoesBack : Obligations.ReturnAfterCallGoesBack := by
  intro nnn s t u hcall hout hsp hstack
  obtain ⟨k, hk, rfl⟩ := exec_call_completed hcall hout
  have hslot : u.stack.get k = s.pc := by rw [hstack, Effect.stack_apply_call, if_pos rfl]
  refine ⟨_, exec_of_effect (State.retEffect_of_occupied hsp), ?_⟩
  rw [hk, ← hslot]
  exact Effect.apply_completesAs rfl u

/-- Settles O31: both instructions are `State.skipIf` on their comparison, as in `immediateComparisonsSkip`. -/
theorem registerComparisonsSkip : Obligations.RegisterComparisonsSkip := by
  refine fun x y s => ⟨⟨_, rfl, s.skipIf_completesAs _, ?_⟩, ⟨_, rfl, s.skipIf_completesAs _, ?_⟩⟩
  · simp only [State.skipIf_pc_toNat, beq_iff_eq]
  · simp only [State.skipIf_pc_toNat, bne_iff_ne, ite_not]

end Sys2Proof.Machine

/-! ## The instructions one by one: the ALU (42_alu.md) -/

namespace Sys2Proof.Machine

/-- A completed register write leaves the byte in its register. -/
theorem State.reg_setReg_completed_self (s : State) (x : RegIdx) (b : Byte) : (s.setReg x b).completed.reg x = b := by
  rw [State.reg_completed, State.reg_setReg, if_pos rfl]

/-- Settles O36: each instruction is one register write of a bitwise result. -/
theorem logicOperationsAreBitwise : Obligations.LogicOperationsAreBitwise := by
  refine fun x y s => ⟨⟨_, rfl, s.setReg_completesAs x _, fun k => ?_, fun r hr => s.reg_setReg_completed_of_ne _ hr⟩,
    ⟨_, rfl, s.setReg_completesAs x _, fun k => ?_, fun r hr => s.reg_setReg_completed_of_ne _ hr⟩,
    ⟨_, rfl, s.setReg_completesAs x _, fun k => ?_, fun r hr => s.reg_setReg_completed_of_ne _ hr⟩⟩
  · rw [State.reg_setReg_completed_self, BitVec.getLsbD_or]
  · rw [State.reg_setReg_completed_self, BitVec.getLsbD_and]
  · rw [State.reg_setReg_completed_self, BitVec.getLsbD_xor]

/-- Settles O40: the instruction is one register write of the supplied byte under the mask. -/
theorem rndMasksTheSuppliedByte : Obligations.RndMasksTheSuppliedByte := by
  refine fun x kk s => ⟨_, rfl, s.setReg_completesAs x _, fun k => ?_, fun r hr => s.reg_setReg_completed_of_ne _ hr⟩
  rw [State.reg_setReg_completed_self, BitVec.getLsbD_and]

/-! ### A result and its flag (R87) -/

/-- A result and its flag, completed, change nothing but the register file. -/
theorem State.setRegFlag_completesAs (s : State) (x : RegIdx) (b f : Byte) :
    s.CompletesAs (s.setRegFlag x b f).completed { s.toCoreState with v := (s.setRegFlag x b f).completed.v } :=
  ⟨rfl, rfl, rfl, rfl, rfl, rfl⟩

theorem State.reg_setRegFlag_flag (s : State) (x : RegIdx) (b f : Byte) :
    (s.setRegFlag x b f).completed.reg flagReg = f := by
  rw [State.reg_completed, State.reg_setRegFlag, if_pos rfl]

theorem State.reg_setRegFlag_result (s : State) {x : RegIdx} (b f : Byte) (h : x ≠ flagReg) :
    (s.setRegFlag x b f).completed.reg x = b := by
  rw [State.reg_completed, State.reg_setRegFlag, if_neg h, if_pos rfl]

theorem State.reg_setRegFlag_other (s : State) {x r : RegIdx} (b f : Byte) (hx : r ≠ x) (hf : r ≠ flagReg) :
    (s.setRegFlag x b f).completed.reg r = s.reg r := by
  rw [State.reg_completed, State.reg_setRegFlag, if_neg hf, if_neg hx]

theorem flagByte_decide (p : Prop) [Decidable p] : flagByte (decide p) = if p then 1 else 0 := by
  simp only [flagByte, decide_eq_true_eq]

/-- Settles O37: the sum of two bytes wraps, and the carry is decided on the unwrapped sum. -/
theorem addRegSetsTheCarry : Obligations.AddRegSetsTheCarry := by
  refine fun x y s =>
    ⟨_, rfl, s.setRegFlag_completesAs x _ _, ?_, fun hx => ?_, fun r hx hf => s.reg_setRegFlag_other _ _ hx hf⟩
  · rw [State.reg_setRegFlag_flag]
    exact flagByte_decide _
  · rw [State.reg_setRegFlag_result s _ _ hx]
    exact BitVec.toNat_add _ _

/-- The difference of two bytes is the residue of the integer difference (R99). -/
theorem toNat_sub_emod (a b : Byte) : ((a - b).toNat : Int) = (a.toNat - b.toNat : Int) % 256 := by
  have hb := b.isLt
  rw [BitVec.toNat_sub]
  omega

/-- Settles O38: the two instructions are the same subtraction with the operands exchanged. -/
theorem subtractionsCompareStrictly : Obligations.SubtractionsCompareStrictly := by
  refine fun x y s =>
    ⟨⟨_, rfl, s.setRegFlag_completesAs x _ _, ?_, fun hx => ?_, fun r hx hf => s.reg_setRegFlag_other _ _ hx hf⟩,
      ⟨_, rfl, s.setRegFlag_completesAs x _ _, ?_, fun hx => ?_, fun r hx hf => s.reg_setRegFlag_other _ _ hx hf⟩⟩
  · rw [State.reg_setRegFlag_flag]
    exact flagByte_decide _
  · rw [State.reg_setRegFlag_result s _ _ hx]
    exact toNat_sub_emod _ _
  · rw [State.reg_setRegFlag_flag]
    exact flagByte_decide _
  · rw [State.reg_setRegFlag_result s _ _ hx]
    exact toNat_sub_emod _ _

theorem toNat_shiftRightFlag (a : Byte) : (shiftRightFlag a).toNat = a.toNat % 2 := by
  rw [shiftRightFlag, BitVec.toNat_and]
  exact Nat.and_one_is_mod _

theorem toNat_shiftLeftFlag (a : Byte) : (shiftLeftFlag a).toNat = a.toNat / 128 := by
  rw [shiftLeftFlag, BitVec.toNat_ushiftRight, Nat.shiftRight_eq_div_pow]

/-- Settles O39: a shift by one is a halving or a doubling, and its flag is the bit that leaves the byte. -/
theorem shiftsMoveOneBitIntoTheFlag : Obligations.ShiftsMoveOneBitIntoTheFlag := by
  refine fun x y s =>
    ⟨⟨_, rfl, s.setRegFlag_completesAs x _ _, ?_, fun hx => ?_, fun r hx hf => s.reg_setRegFlag_other _ _ hx hf⟩,
      ⟨_, rfl, s.setRegFlag_completesAs x _ _, ?_, fun hx => ?_, fun r hx hf => s.reg_setRegFlag_other _ _ hx hf⟩⟩
  · rw [State.reg_setRegFlag_flag, toNat_shiftRightFlag]
  · rw [State.reg_setRegFlag_result s _ _ hx, BitVec.toNat_ushiftRight, Nat.shiftRight_eq_div_pow]
  · rw [State.reg_setRegFlag_flag, toNat_shiftLeftFlag]
  · rw [State.reg_setRegFlag_result s _ _ hx, BitVec.toNat_shiftLeft, Nat.shiftLeft_eq]

end Sys2Proof.Machine

/-! ## The instructions one by one: I and memory transfers (43_index_memory.md) -/

namespace Sys2Proof.Machine

/-- Settles O42: both instructions are one write of I, and the address of a glyph needs no wrap. -/
theorem indexArithmetic : Obligations.IndexArithmetic := by
  refine fun x s => ⟨⟨_, rfl, s.withI_completesAs _, ?_⟩, ⟨_, rfl, s.withI_completesAs _, ?_⟩⟩
  · show (s.i + (s.reg x).setWidth 16).toNat = _
    rw [BitVec.toNat_add, BitVec.toNat_setWidth_of_le (by decide)]
  · show (glyphAddress (s.reg x)).toNat = _
    have hx := (s.reg x).isLt
    simp only [glyphAddress, BitVec.toNat_ofNat, Config.glyphSize]
    omega

/-- Settles O43: the two laws of the read. -/
theorem memReadIsBoundsChecked : Obligations.MemReadIsBoundsChecked := by
  refine fun s a n hn => ⟨fun h => s.memRead_eq_none (by omega), fun h => ?_⟩
  exact ⟨_, s.memRead_eq_some (by omega), Memory.readBytes_length _ _ _, fun k hk => Memory.readBytes_getElem? _ _ _ _ hk⟩

/-- A byte of a store reads back as it was stored. -/
theorem Memory.read_writeBytes_of_getElem? (m : Memory) (a k : Nat) {bytes : List Byte} {b : Byte} (h : bytes[k]? = some b) :
    (m.writeBytes a bytes).read (a + k) = b := by
  rw [Memory.read_writeBytes, if_pos (Nat.le_add_right a k), Nat.add_sub_cancel_left, h]
  rfl

/-- A number below 256 is the value of its byte. -/
theorem toNat_byte_of_lt {n : Nat} (h : n < 256) : (BitVec.ofNat 8 n : Byte).toNat = n := by
  rw [BitVec.toNat_ofNat, Nat.mod_eq_of_lt h]

/-- A digit stored reads back with its value. -/
theorem Memory.toNat_read_digit (m : Memory) (a k : Nat) (v : Byte) {d : Nat} (hd : d < 256)
    (h : (decimalDigits v)[k]? = some (BitVec.ofNat 8 d)) : ((m.writeBytes a (decimalDigits v)).read (a + k)).toNat = d := by
  rw [m.read_writeBytes_of_getElem? a k h, toNat_byte_of_lt hd]

/-- Settles O44: a store of three bytes, each digit of which fits a byte. -/
theorem ldBStoresDecimalDigits : Obligations.LdBStoresDecimalDigits := by
  refine fun x s => ⟨fun h => ?_, fun h => ?_⟩
  · have hraise : (Instr.ldB x).effect s = .raise .memoryBounds :=
      s.storeEffect_eq_raise (by rw [decimalDigits_length]; omega)
    exact ⟨_, exec_of_effect hraise, s.raise_raisesAs _⟩
  · have hstore : (Instr.ldB x).effect s = .store s.i.toNat (decimalDigits (s.reg x)) :=
      s.storeEffect_eq_store (by rw [decimalDigits_length]; omega)
    have hv := (s.reg x).isLt
    exact ⟨_, exec_of_effect hstore, Effect.apply_completesAs rfl s, s.mem.toNat_read_digit _ 0 _ (by omega) rfl,
      s.mem.toNat_read_digit _ 1 _ (by omega) rfl, s.mem.toNat_read_digit _ 2 _ (by omega) rfl,
      fun a ha => Memory.read_writeBytes_outside _ _ _ _ ha⟩

/-- A stored register block reads back register by register. -/
theorem State.read_store_regBlock (s : State) (a : Nat) {x r : RegIdx} (h : r ≤ x) :
    (s.mem.writeBytes a (s.regBlock x)).read (a + r.val) = s.reg r :=
  s.mem.read_writeBytes_of_getElem? a r.val (s.regBlock_getElem? x r h)

theorem effect_ldMemVx_of_inBounds {s : State} {x : RegIdx} (h : s.i.toNat + x.val ≤ 0xFFF) :
    (Instr.ldMemVx x).effect s = .store s.i.toNat (s.regBlock x) :=
  s.storeEffect_eq_store (by rw [State.regBlock_length]; omega)

theorem effect_ldMemVx_of_outside {s : State} {x : RegIdx} (h : 0xFFF < s.i.toNat + x.val) :
    (Instr.ldMemVx x).effect s = .raise .memoryBounds :=
  s.storeEffect_eq_raise (by rw [State.regBlock_length]; omega)

/-- Settles O45: a store of x + 1 bytes. -/
theorem ldMemVxStoresTheRegisterBlock : Obligations.LdMemVxStoresTheRegisterBlock := by
  refine fun x s => ⟨fun h => ⟨_, exec_of_effect (effect_ldMemVx_of_outside h), s.raise_raisesAs _⟩, fun h => ?_⟩
  refine ⟨_, exec_of_effect (effect_ldMemVx_of_inBounds h), Effect.apply_completesAs rfl s,
    fun r hr => s.read_store_regBlock _ hr, fun a ha => Memory.read_writeBytes_outside _ _ _ _ ?_⟩
  rw [State.regBlock_length]
  omega

theorem effect_ldVxMem_of_inBounds {s : State} {x : RegIdx} (h : s.i.toNat + x.val ≤ 0xFFF) :
    (Instr.ldVxMem x).effect s = .load (s.mem.readBytes s.i.toNat (x.val + 1)) :=
  s.loadEffect_eq_load (by omega)

theorem effect_ldVxMem_of_outside {s : State} {x : RegIdx} (h : 0xFFF < s.i.toNat + x.val) :
    (Instr.ldVxMem x).effect s = .raise .memoryBounds :=
  s.loadEffect_eq_raise (by omega)

/-- What a register holds after a load of n bytes from address a (R107). -/
theorem Effect.reg_apply_load (s : State) (m : Memory) (a n : Nat) (r : RegIdx) :
    ((Effect.load (m.readBytes a n)).apply s).reg r = if r.val < n then m.read (a + r.val) else s.reg r := by
  rw [Effect.apply_load, State.reg_completed, State.reg_setRegBlock]
  split_ifs with h
  · rw [Memory.readBytes_getElem? _ _ _ _ h]
    rfl
  · rw [List.getElem?_eq_none (by rw [Memory.readBytes_length]; omega)]
    rfl

/-- Settles O46: a load of x + 1 bytes. -/
theorem ldVxMemLoadsTheRegisterBlock : Obligations.LdVxMemLoadsTheRegisterBlock := by
  refine fun x s => ⟨fun h => ⟨_, exec_of_effect (effect_ldVxMem_of_outside h), s.raise_raisesAs _⟩, fun h => ?_⟩
  refine ⟨_, exec_of_effect (effect_ldVxMem_of_inBounds h), Effect.apply_completesAs rfl s, fun r => ?_⟩
  rw [Effect.reg_apply_load]
  exact if_congr Nat.lt_succ_iff rfl rfl

/-- A store of the register block that completes was in memory. -/
theorem exec_ldMemVx_completed {x : RegIdx} {s t : State} (h : exec (.ldMemVx x) s = .next t)
    (hout : t.outcome = some .completed) :
    s.i.toNat + x.val ≤ 0xFFF ∧ t = (Effect.store s.i.toNat (s.regBlock x)).apply s := by
  obtain rfl := eq_apply_of_exec h
  have hin : s.i.toNat + x.val ≤ 0xFFF := by
    by_contra hlt
    rw [effect_ldMemVx_of_outside (Nat.lt_of_not_le hlt)] at hout
    cases hout
  exact ⟨hin, congrArg (Effect.apply · s) (effect_ldMemVx_of_inBounds hin)⟩

/-- Settles O47: the load reads the bytes of the store, register by register. -/
theorem storeThenLoadRestoresRegisters : Obligations.StoreThenLoadRestoresRegisters := by
  intro x s t u hstore hout hmem hi
  obtain ⟨hin, rfl⟩ := exec_ldMemVx_completed hstore hout
  refine ⟨_, exec_of_effect (effect_ldVxMem_of_inBounds (hi ▸ hin)), Effect.apply_completesAs rfl u, fun r => ?_⟩
  rw [Effect.reg_apply_load, hmem, hi]
  by_cases hr : r ≤ x
  · rw [if_pos (Nat.lt_succ_of_le hr), if_pos hr]
    exact s.read_store_regBlock _ hr
  · rw [if_neg fun hlt => hr (Nat.le_of_lt_succ hlt), if_neg hr]

/-- A store of the digits that completes was in memory. -/
theorem exec_ldB_completed {x : RegIdx} {s t : State} (h : exec (.ldB x) s = .next t) (hout : t.outcome = some .completed) :
    t = (Effect.store s.i.toNat (decimalDigits (s.reg x))).apply s := by
  obtain rfl := eq_apply_of_exec h
  by_cases hin : s.i.toNat + (decimalDigits (s.reg x)).length ≤ 0x1000
  · exact congrArg (Effect.apply · s) (s.storeEffect_eq_store hin)
  · have hraise : (Instr.ldB x).effect s = .raise .memoryBounds := s.storeEffect_eq_raise (Nat.lt_of_not_le hin)
    rw [hraise] at hout
    cases hout

/-- Every byte of memory after a store of the register block: a register in the stored range, the byte as it was outside it. -/
theorem State.read_writeBytes_regBlock (s : State) (x : RegIdx) (b a : Nat) :
    (s.mem.writeBytes b (s.regBlock x)).read a =
      if b ≤ a ∧ a ≤ b + x.val then s.reg (Fin.ofNat 16 (a - b)) else s.mem.read a := by
  split_ifs with h
  · have hk : (Fin.ofNat 16 (a - b)).val = a - b := Nat.mod_eq_of_lt (by omega)
    have ha : a = b + (Fin.ofNat 16 (a - b)).val := by omega
    have hle : Fin.ofNat 16 (a - b) ≤ x := Fin.le_def.mpr (by omega)
    conv_lhs => rw [ha]
    exact s.read_store_regBlock b hle
  · refine Memory.read_writeBytes_outside _ _ _ _ ?_
    rw [State.regBlock_length]
    omega

/-- Every byte of memory after a store of the digits. -/
theorem Memory.read_writeBytes_decimalDigits (m : Memory) (v : Byte) (b a : Nat) :
    (m.writeBytes b (decimalDigits v)).read a =
      if a = b then BitVec.ofNat 8 (v.toNat / 100)
      else if a = b + 1 then BitVec.ofNat 8 (v.toNat / 10 % 10)
      else if a = b + 2 then BitVec.ofNat 8 (v.toNat % 10) else m.read a := by
  split_ifs with h0 h1 h2
  · subst h0
    exact m.read_writeBytes_of_getElem? a 0 rfl
  · subst h1
    exact m.read_writeBytes_of_getElem? b 1 rfl
  · subst h2
    exact m.read_writeBytes_of_getElem? b 2 rfl
  · refine Memory.read_writeBytes_outside _ _ _ _ ?_
    rw [decimalDigits_length]
    omega

/-- Settles O48: a store leaves PC and the latch, and the fetch reads memory byte by byte. -/
theorem storeIsSeenByTheNextFetch : Obligations.StoreIsSeenByTheNextFetch := by
  refine fun x s t hwait hpc hout => ⟨fun h => ?_, fun h => ?_⟩
  · obtain ⟨-, rfl⟩ := exec_ldMemVx_completed h hout
    exact ⟨hwait, hpc, congrArg₂ (· ++ ·) (s.read_writeBytes_regBlock x _ _) (s.read_writeBytes_regBlock x _ _)⟩
  · obtain rfl := exec_ldB_completed h hout
    exact ⟨hwait, hpc, congrArg₂ (· ++ ·) (s.mem.read_writeBytes_decimalDigits _ _ _)
      (s.mem.read_writeBytes_decimalDigits _ _ _)⟩

end Sys2Proof.Machine

/-! ## The instructions one by one: display (44_display.md) -/

namespace Sys2Proof.Machine

/-- `00E0` is a write of the clear framebuffer (R110). -/
theorem exec_cls (s : State) : exec .cls s = .next (s.withFb clearFramebuffer).completed := rfl

/-- Settles O49: the framebuffer written is clear, and there is one clear framebuffer. -/
theorem clsTurnsEveryPixelOff : Obligations.ClsTurnsEveryPixelOff := by
  refine ⟨fun _ => decodeWord_eq_some_iff, fun s => ?_⟩
  refine ⟨_, exec_cls s, ⟨rfl, rfl, rfl, rfl, rfl, rfl⟩, pixel_clearFramebuffer, fun hoff => framebuffer_ext fun py px => ?_⟩
  rw [State.completed_fb, State.withFb_fb, pixel_clearFramebuffer, hoff]

/-- Every pixel of a draw is XORed with the sprite's bit there (R111). -/
theorem State.pixel_drawn (s : State) (x y : RegIdx) (rows : List Byte) (py : Fin 32) (px : Fin 64) :
    pixel (s.drawn x y rows).1 py px =
      (pixel s.fb py px ^^ spriteOn ((s.reg x).toNat % 64) ((s.reg y).toNat % 32) rows py px) :=
  pixel_drawRows _ _ _ _ py px

/-- The collision flag of a draw: a sprite bit fell on a pixel that was on (R111). -/
theorem State.flag_drawn (s : State) (x y : RegIdx) (rows : List Byte) :
    (s.drawn x y rows).2 = true ↔
      ∃ py px, spriteOn ((s.reg x).toNat % 64) ((s.reg y).toNat % 32) rows py px = true ∧ pixel s.fb py px = true := by
  unfold State.drawn
  rw [flag_drawRows]
  exact or_iff_right Bool.false_ne_true

theorem flagByte_eq_one_iff {f : Bool} : flagByte f = 1 ↔ f = true := by
  cases f <;> decide

theorem flagByte_eq_zero_iff {f : Bool} : flagByte f = 0 ↔ f = false := by
  cases f <;> decide

/-- What a register holds after a draw: VF the flag, every other register its own byte. -/
theorem Effect.reg_apply_draw (fb : Framebuffer) (f : Byte) (s : State) (r : RegIdx) :
    ((Effect.draw fb f).apply s).reg r = if r = flagReg then f else s.reg r :=
  s.reg_setReg flagReg r f

/-- Settles O50: the pixels and the flag of the draw loop, on the rows that were checked first. -/
theorem drwXorsTheSprite : Obligations.DrwXorsTheSprite := by
  refine fun x y n s => ⟨fun ⟨hn, hout⟩ => ?_, fun hin => ?_⟩
  · exact ⟨_, exec_of_effect (s.drawEffect_eq_raise x y (by omega) (by omega)), s.raise_raisesAs _⟩
  · refine ⟨_, exec_of_effect (s.drawEffect_eq_draw x y (by omega)), Effect.apply_completesAs rfl s, s.pixel_drawn x y _,
      ?_, ?_, fun r hr => (Effect.reg_apply_draw _ _ s r).trans (if_neg hr)⟩
    · rw [Effect.reg_apply_draw, if_pos rfl, flagByte_eq_one_iff, State.flag_drawn]
    · rw [Effect.reg_apply_draw, if_pos rfl, flagByte_eq_zero_iff, ← Bool.not_eq_true, State.flag_drawn]
      simp only [not_exists, not_and, Bool.not_eq_true]

/-- Settles O51: the second draw has the same rows and the same origin, so every pixel is XORed with the same bit twice; a draw
that raises changes nothing the second one reads. -/
theorem drawingTwiceRestoresTheFramebuffer : Obligations.DrawingTwiceRestoresTheFramebuffer := by
  intro x y n s t hx hy h
  obtain rfl := eq_apply_of_exec h
  by_cases hin : n.val = 0 ∨ s.i.toNat + n.val ≤ 0x1000
  · have hfirst : (Instr.drw x y n).effect s = _ := s.drawEffect_eq_draw x y hin
    rw [hfirst]
    refine ⟨_, exec_of_effect (State.drawEffect_eq_draw _ x y hin), framebuffer_ext fun py px => ?_, rfl⟩
    refine (State.pixel_drawn _ x y _ py px).trans ?_
    rw [Effect.reg_apply_draw, if_neg hx, Effect.reg_apply_draw, if_neg hy]
    refine (congrArg (· ^^ _) (s.pixel_drawn x y _ py px)).trans ?_
    rw [Bool.xor_assoc]
    exact (congrArg _ (Bool.xor_self _)).trans (Bool.xor_false _)
  · have hraise : ∀ u : State, u.i = s.i → (Instr.drw x y n).effect u = .raise .memoryBounds := fun u hu =>
      u.drawEffect_eq_raise x y (by omega) (by rw [hu]; omega)
    rw [hraise s rfl]
    exact ⟨_, exec_of_effect (hraise _ rfl), rfl, rfl⟩

end Sys2Proof.Machine

/-! ## The instructions one by one: keypad and timers (45_keypad_timers.md) -/

namespace Sys2Proof.Machine

/-- Settles O52: both instructions are a skip on the level of the key, or a raise. -/
theorem keySkipsFollowTheSample : Obligations.KeySkipsFollowTheSample := by
  refine fun x s => ⟨fun h => ?_, fun k h => ?_⟩
  · exact ⟨⟨_, congrArg Host.Outcome.next (s.skipOnKey_raises x true h), s.raise_raisesAs _⟩,
      ⟨_, congrArg Host.Outcome.next (s.skipOnKey_raises x false h), s.raise_raisesAs _⟩⟩
  · refine ⟨⟨_, congrArg Host.Outcome.next (s.skipOnKey_completes x true h), s.skipIf_completesAs _, ?_⟩,
      ⟨_, congrArg Host.Outcome.next (s.skipOnKey_completes x false h), s.skipIf_completesAs _, ?_⟩⟩
    · rw [State.skipIf_pc_toNat, beq_true]
    · rw [State.skipIf_pc_toNat, beq_false]
      cases s.keys.get k <;> rfl

theorem Effect.apply_waitsAs (w : KeyWait) (s : State) :
    s.WaitsAs ((Effect.wait w).apply s) { s.toCoreState with wait := some w } :=
  ⟨rfl, rfl, rfl, rfl, rfl, rfl⟩

/-- Settles O53: each mode on what `leastKey` answers. -/
theorem ldVxKBeginsAKeyWait : Obligations.LdVxKBeginsAKeyWait := by
  refine fun x s => ⟨rfl, ⟨rfl, rfl, rfl, rfl, rfl, rfl⟩, fun hup => ?_, fun k hk hleast => ?_⟩
  · have hnone : leastKey s.keys = none := leastKey_eq_none.mpr hup
    rw [State.beginKeyWait, hnone]
    exact ⟨rfl, rfl, rfl, rfl, rfl, rfl⟩
  · have hsome : leastKey s.keys = some k := leastKey_eq_some.mpr ⟨hk, hleast⟩
    have hbegin : s.beginKeyWait .level x = (s.setReg x (keyNumber k)).completed := by rw [State.beginKeyWait, hsome]
    rw [hbegin]
    refine ⟨s.setReg_completesAs x _, ?_, fun r hr => s.reg_setReg_completed_of_ne _ hr⟩
    rw [State.reg_setReg_completed_self, keyNumber_toNat]

/-- A key that ends the wait in this mode: down now, and in `edge` up in the snapshot (R119). -/
def KeyWait.qualifies (mode : KeywaitMode) (w : KeyWait) (keys : Keys) (k : Fin 16) : Bool :=
  keys.get k && (mode == .level || !w.prev.get k)

theorem KeyWait.qualifies_level (w : KeyWait) (keys : Keys) (k : Fin 16) : w.qualifies .level keys k = keys.get k :=
  Bool.and_true _

/-- With no qualifying key the wait goes on, its snapshot renewed in `edge`. -/
theorem KeyWait.effect_of_none {mode : KeywaitMode} {w : KeyWait} {keys : Keys} (h : ∀ k, w.qualifies mode keys k = false) :
    w.effect mode keys = .wait (if mode = .edge then ⟨w.x, keys⟩ else w) := by
  unfold KeyWait.effect
  cases mode with
  | edge =>
    have hnone : leastNewKey keys w.prev = none := leastNewKey_eq_none.mpr h
    rw [hnone]
    rfl
  | level =>
    have hnone : leastKey keys = none := leastKey_eq_none.mpr fun k => w.qualifies_level keys k ▸ h k
    rw [hnone]
    rfl

/-- The least qualifying key ends the wait. -/
theorem KeyWait.effect_of_least {mode : KeywaitMode} {w : KeyWait} {keys : Keys} {k : Fin 16}
    (hk : w.qualifies mode keys k = true) (hleast : ∀ j, j < k → w.qualifies mode keys j = false) :
    w.effect mode keys = .wake w.x (keyNumber k) := by
  unfold KeyWait.effect
  cases mode with
  | edge =>
    have hsome : leastNewKey keys w.prev = some k := leastNewKey_eq_some.mpr ⟨hk, hleast⟩
    rw [hsome]
    rfl
  | level =>
    simp only [KeyWait.qualifies_level] at hk hleast
    have hsome : leastKey keys = some k := leastKey_eq_some.mpr ⟨hk, hleast⟩
    rw [hsome]
    rfl

/-- Settles O54: the waiting step is the effect of the latch, which the least qualifying key decides. -/
theorem waitingStepTakesTheLeastKey : Obligations.WaitingStepTakesTheLeastKey := by
  refine fun s w hw => ⟨fun keys rand8 => State.cycle_waiting (s := s.sample keys rand8) hw, fun mode => ?_⟩
  rw [State.waitStep_eq mode hw]
  refine ⟨fun hnone => ?_, fun k hk hleast => ?_⟩
  · rw [KeyWait.effect_of_none hnone]
    exact Effect.apply_waitsAs _ s
  · rw [KeyWait.effect_of_least hk hleast]
    have hreg : ∀ r, ((Effect.wake w.x (keyNumber k)).apply s).reg r = if r = w.x then keyNumber k else s.reg r := fun r =>
      s.reg_setReg w.x r (keyNumber k)
    refine ⟨Effect.apply_completesAs rfl s, ?_, fun r hr => (hreg r).trans (if_neg hr)⟩
    rw [hreg, if_pos rfl, keyNumber_toNat]

/-- Settles O55: one register write and two timer writes. -/
theorem timerInstructionsMoveOneByte : Obligations.TimerInstructionsMoveOneByte := by
  refine ⟨encodedAs_row (.ldVxDt 0), encodedAs_row (.ldDtVx 0), encodedAs_row (.ldStVx 0), fun x s =>
    ⟨⟨_, rfl, s.setReg_completesAs x _, fun r => ?_⟩, ⟨_, rfl, rfl, rfl, rfl, rfl, rfl, rfl⟩,
      ⟨_, rfl, rfl, rfl, rfl, rfl, rfl, rfl⟩⟩⟩
  rw [State.reg_completed, State.reg_setReg]

end Sys2Proof.Machine

/-! ## Loading a program, and reset (70_reset_and_hazards.md) -/

namespace Sys2Proof.Machine

/-- Settles O57: a load is a write of consecutive bytes. -/
theorem loadCopiesTheProgram : Obligations.LoadCopiesTheProgram := by
  intro s bytes h
  rw [s.load_of_fits h]
  exact ⟨rfl, rfl, fun k b hb => s.mem.read_writeBytes_of_getElem? _ k hb,
    fun a ha => Memory.read_writeBytes_outside _ _ _ _ ha, rfl⟩

/-- Settles O58. -/
theorem loadOfTooMuchIsRefused : Obligations.LoadOfTooMuchIsRefused := by
  intro s bytes h
  rw [s.load_of_too_long h]
  exact ⟨rfl, rfl⟩

/-- Settles O59: memory lists nothing, so it reads as the font and 0; every vector is a constant one. -/
theorem resetValues : Obligations.ResetValues := by
  refine ⟨fun a h => dif_pos h, fun a h => dif_neg (Nat.not_lt.mpr h), fun r => ?_, rfl, rfl, rfl, fun k => ?_, rfl, rfl, rfl,
    pixel_clearFramebuffer⟩
  · simp [State.reg, State.reset, Vector.get_eq_getElem]
  · simp [State.reset, Vector.get_eq_getElem]

end Sys2Proof.Machine
